-- ==== Sys2Proof/Word.lean ====
section
/-! DEFINITION. The word types of LUFS-FE. -/

namespace Sys2Proof

/-- The 64-bit pattern of an IEEE 754 binary64 value: bit 63 sign, bits 62:52 biased exponent, bits 51:0 fraction (R15).
Samples, filter registers, buffer elements, energies, weights and gains are of this type; so is a 64-bit response. -/
abbrev F64 := BitVec 64

/-- A byte of a serialised word (R54). -/
abbrev Byte := BitVec 8

/-- A command word, `OP[79:72] CH[71:64] DATA[63:0]` (R70). -/
abbrev CmdWord := BitVec 80

/-- A response word, `ST[71:64] DATA[63:0]` (R72). -/
abbrev RspWord := BitVec 72

end Sys2Proof
end

