-- ==== Sys2Proof/Config.lean ====
section
/-! DEFINITION. The configuration record of an instance (R8), the resampler's answer as data (R176), and the free values:
opaque constants with no body, so that nothing can be proved of what they are. -/

namespace Sys2Proof

/-- The five coefficients of one filter stage (R8, R100). -/
structure Coef where
  a1 : F64
  a2 : F64
  b0 : F64
  b1 : F64
  b2 : F64
  deriving DecidableEq, Repr

/-- `MODE` (R8): overlapping 400 ms analysis blocks, or a circular sliding window. -/
inductive Mode where
  | block
  | circ
  deriving DecidableEq, Repr

/-- The implementation parameters of R8. They are fixed for the life of an instance; which sets are an instance is
`Config.valid` (R10). `N`, `H`, `OV`, `TP_RATIO` are computed from them. -/
structure Config where
  /-- `FS`, sample rate in Hz. -/
  fs : Nat
  /-- `NCH`, channels of the loudness side. -/
  nch : Nat
  mode : Mode
  /-- `WIN_MS`, used only in mode CIRC. -/
  winMs : Nat
  /-- `W[c]`, channel 0 first. -/
  w : List F64
  /-- `COEF[1]`, the shelf stage. -/
  coef1 : Coef
  /-- `COEF[2]`, the RLB stage. -/
  coef2 : Coef
  gIn : F64
  gOut : F64
  /-- `TP_NCH`, channels of the true-peak side. -/
  tpNch : Nat
  /-- `TP_MAXBUF`, frames. -/
  tpMaxbuf : Nat
  /-- `TP_OCAP`, frames. -/
  tpOcap : Nat
  /-- `RS_QUALITY`: passed to the resampler at construction and never read by the block (R8). -/
  rsQuality : Nat
  /-- The premise of R10: the resampler accepted `TP_RATIO`, `TP_NCH` and `RS_QUALITY` (`Config.construction`). -/
  rsAccepted : Bool
  deriving DecidableEq, Repr

/-- What the resampler is constructed with (R176): the fixed ratio, the channel count and the quality mode. -/
structure Construction where
  ratio : Rat
  channels : Nat
  quality : Nat
  deriving DecidableEq, Repr

/-- One answer on the resampler response channel (R176): frames used, frames generated, the generated samples interleaved. -/
structure Reply where
  used : Nat
  gen : Nat
  out : List F64
  deriving DecidableEq, Repr, Inhabited

/-- FREE VALUE (log entry 5): the sign (bit 51) and the payload (bits 50:0) of the NaN that operation number `site` of the
command with draw number `draw` produces; R106 leaves them open. -/
opaque Config.freeNan (draw site : Nat) : BitVec 52

/-- FREE VALUE (log entry 6): an answer of the resampler that the environment list does not hold; R177 leaves it open. It is
cut to the contract of R176 where it is used. -/
opaque Config.freeReply (draw : Nat) : Reply

/-- The default coefficient table of R104 (from general knowledge, by the spec's own mark G1), shelf stage. -/
def Config.defaultCoef1 : Coef where
  a1 := 0xBFFB0CF0C24E59D0
  a2 := 0x3FE7707B85469635
  b0 := 0x3FF88FDF15B33DF7
  b1 := 0xC005889803022552
  b2 := 0x3FF32C9DF0A5FDF9

/-- The default coefficient table of R104 (G1), RLB stage. -/
def Config.defaultCoef2 : Coef where
  a1 := 0xBFFFD73BFFFFFFEC
  a2 := 0x3FEFAEABFFFFFFF8
  b0 := 0x3FF0000000000000
  b1 := 0xC000000000000000
  b2 := 0x3FF0000000000000

/-- The example instance XD of 95_test_vectors.md section 0: the parameters of `State.reset` (DESIGN CHOICE, log entry 2). -/
def Config.xd : Config where
  fs := 48000
  nch := 2
  mode := .block
  winMs := 400
  w := [0x3FF0000000000000, 0x3FF0000000000000]
  coef1 := Config.defaultCoef1
  coef2 := Config.defaultCoef2
  gIn := 0x3FCFE28240B78034
  gOut := 0x400FFDF3B645A1CB
  tpNch := 2
  tpMaxbuf := 512
  tpOcap := 2048
  rsQuality := 0
  rsAccepted := true

end Sys2Proof
end

