-- ==== Sys2Proof/Syntax.lean ====
section
/-! DEFINITION. The 19 commands (R74), one constructor per row of spec/opcode_table.json. -/

namespace Sys2Proof

/-- A command. Every constructor carries the `CH` and the `DATA` field of its word (R70), also where R74 says a field must be
zero: a word that breaks this is still this command (the table's mask is the `OP` field alone), and executing it faults with
`RESERVED_FIELD`, recording the fields (R75, R245). `Instr.wellFormed` says which are zero. -/
inductive Instr where
  /-- `NOP` (R200) -/
  | nop (ch : BitVec 8) (data : BitVec 64)
  /-- `FRST ch` (R110) -/
  | frst (ch : BitVec 8) (data : BitVec 64)
  /-- `FPROC ch, x` (R111) -/
  | fproc (ch : BitVec 8) (data : BitVec 64)
  /-- `RDFS ch, sel` (R112) -/
  | rdfs (ch : BitVec 8) (data : BitVec 64)
  /-- `PUSH ch, x` (R131) -/
  | push (ch : BitVec 8) (data : BitVec 64)
  /-- `MSQ ch` (R138) -/
  | msq (ch : BitVec 8) (data : BitVec 64)
  /-- `WSUM` (R139) -/
  | wsum (ch : BitVec 8) (data : BitVec 64)
  /-- `RDBLK ch` (R140) -/
  | rdblk (ch : BitVec 8) (data : BitVec 64)
  /-- `RDBLKE` (R141) -/
  | rdblke (ch : BitVec 8) (data : BitVec 64)
  /-- `BLKACK` (R142) -/
  | blkack (ch : BitVec 8) (data : BitVec 64)
  /-- `CRST ch` (R143) -/
  | crst (ch : BitVec 8) (data : BitVec 64)
  /-- `MRST` (R144) -/
  | mrst (ch : BitVec 8) (data : BitVec 64)
  /-- `RDBUF ch, i` (R145) -/
  | rdbuf (ch : BitVec 8) (data : BitVec 64)
  /-- `RDW ch` (R146) -/
  | rdw (ch : BitVec 8) (data : BitVec 64)
  /-- `TPIN x` (R171) -/
  | tpin (ch : BitVec 8) (data : BitVec 64)
  /-- `TPRUN` (R172) -/
  | tprun (ch : BitVec 8) (data : BitVec 64)
  /-- `TPRD` (R174) -/
  | tprd (ch : BitVec 8) (data : BitVec 64)
  /-- `TPRST` (R175) -/
  | tprst (ch : BitVec 8) (data : BitVec 64)
  /-- `RDREG idx` (R201) -/
  | rdreg (ch : BitVec 8) (data : BitVec 64)
  deriving DecidableEq, Repr

end Sys2Proof
end

