-- ==== Sys2Proof/Machine/State.lean ====
section
/-! DEFINITION. The state of one instance (R20) with its ports, the reasons a step can stop, and the state after reset (R39).
Plain data throughout. -/

namespace Sys2Proof.Machine

/-- The fault causes of R241. A fault of the block is a NEXT state (R245), not a stop of the model. -/
inductive Cause where
  | illegalOp
  | reservedField
  | badChannel
  | badIndex
  | frameSeq
  | tpBufOver
  | tpFramePartial
  deriving DecidableEq, Repr

/-- Why the machine stops for good. -/
inductive Fault where
  /-- Raised by `takeEvent` where a command word is presented while `TPRUN` waits for an answer that never comes: R281, U5, "stuck:
  TPRUN does not complete, no further command is accepted". Safe: the hardware hangs there too, and where the
  next event is `rst` the model goes on (R270). -/
  | resamplerSilent
  deriving DecidableEq, Repr

/-- Why the model gives a step no meaning. -/
inductive Refusal where
  /-- An arm of `exec` that has no meaning yet; raised by no arm of this model. Safe. -/
  | notModelled (mnemonic : String)
  /-- Raised by `step` where the configuration violates R8 or R10: there is no instance (R10, R250, U7 "refuse"). Safe. -/
  | noInstance
  /-- Raised by `TPRUN` when the environment supplies an answer outside the contract of R176: "this spec gives no behaviour"
  (R177, U6 "refuse"). Safe for claims about a resampler that keeps its contract, the only one the spec gives. -/
  | resamplerBreach
  deriving DecidableEq, Repr

/-- A storage space of 64-bit elements (R50): the listed (index, element) pairs, indices strictly rising, no element equal to
`+0.0`; an index not listed holds `+0.0`. There are no bytes inside the block (R54; log entry 11). -/
abbrev Mem := List (Nat × F64)

/-- What belongs to one channel of the loudness side (R20, R21, R23, R26, R27). -/
structure Channel where
  /-- `prev[c][1]` -/
  prev1 : F64
  /-- `last[c][1]` -/
  last1 : F64
  /-- `prev[c][2]` -/
  prev2 : F64
  /-- `last[c][2]` -/
  last2 : F64
  /-- `BUF[c]` -/
  buf : Mem
  /-- `pushed[c]` -/
  pushed : Bool
  /-- `blk_ms[c]` -/
  blkMs : F64
  deriving DecidableEq, Repr

/-- What the host does at the block's ports, in order (R12, R13): present a command word, or pulse `rst` (R270). -/
inductive PortEvent where
  | cmd (w : CmdWord)
  /-- `rst` is pulsed: between two commands, or, where there is a word, while the block executes that word, which it then
  abandons (R270; log entry 12). -/
  | rst (during : Option CmdWord)
  deriving DecidableEq, Repr

/-- What the resampler does with a request (R176, R281): answer it, or never answer. -/
inductive ResamplerMove where
  | answer (r : Reply)
  | silent
  deriving DecidableEq, Repr

/-- What `TPRUN` sends on the resampler request channel (R176): the frame count and the interleaved samples. -/
structure Request where
  frames : Nat
  samples : List F64
  deriving DecidableEq, Repr

/-- The state. `cfg` is the instance's parameters, which no step changes (R35, R40; log entry 1). `port`, `rsps`, `replies`,
`requests` are the ports, `waiting` is the command in progress and `draws` numbers the free values; the rest is the table of
R20. -/
structure State where
  cfg : Config
  /-- Channel 0 first, `NCH` of them. -/
  chans : List Channel
  /-- `wp` (R25) -/
  wp : BitVec 32
  /-- `blk_e` (R27) -/
  blkE : F64
  /-- `BLKCNT` (R28) -/
  blkCnt : BitVec 64
  /-- `STATUS.FAULT` (R29) -/
  fault : Bool
  /-- `STATUS.BLOCK_READY` -/
  blockReady : Bool
  /-- `STATUS.OVR` -/
  ovr : Bool
  /-- `STATUS.TP_TOUCHED` (R32) -/
  tpTouched : Bool
  /-- `FAULT` (R30) -/
  faultReg : BitVec 64
  /-- `FDATA` (R30) -/
  fdata : BitVec 64
  /-- `tp_gain` (R31) -/
  tpGain : F64
  /-- `TPI` (R33) -/
  tpi : Mem
  /-- `tp_fill` (R33) -/
  tpFill : BitVec 32
  /-- Events the host has still to have executed, next first. -/
  port : List PortEvent
  /-- Response words delivered, oldest first. -/
  rsps : List RspWord
  /-- What the resampler will do, next first; after the end of the list its answers are free values. -/
  replies : List ResamplerMove
  /-- Requests sent to the resampler, oldest first. -/
  requests : List Request
  /-- A `TPRUN` is in progress: its request is out and the resampler does not answer (R270, R281). -/
  waiting : Bool
  /-- How many commands have drawn free values. -/
  draws : Nat
  deriving DecidableEq, Repr

/-- The answer of one instruction. -/
abbrev Result := Host.Outcome State Fault Refusal

/-- A channel after `rst` (R39). -/
def Channel.reset : Channel where
  prev1 := 0
  last1 := 0
  prev2 := 0
  last2 := 0
  buf := []
  pushed := false
  blkMs := 0

/-- The instance with parameters `c` right after `rst`, or right after construction (R39, R272), with nothing at its ports. -/
def State.resetOf (c : Config) : State where
  cfg := c
  chans := List.replicate c.nch Channel.reset
  wp := 0
  blkE := 0
  blkCnt := 0
  fault := false
  blockReady := false
  ovr := false
  tpTouched := false
  faultReg := 0
  fdata := 0
  tpGain := 0
  tpi := []
  tpFill := 0
  port := []
  rsps := []
  replies := []
  requests := []
  waiting := false
  draws := 0

/-- The machine right after reset (R39), for the example instance XD (log entry 2). -/
def State.reset : State := State.resetOf Config.xd

end Sys2Proof.Machine
end

