-- ==== Sys2Proof/Machine/Flags.lean ====
section
/-! DEFINITION. The status flags: `STATUS` as a word (R29), the `ST` byte and the response word (R72). No command writes
`STATUS` as a word and no arithmetic sets a flag (R29, R109), so the flags are stored one by one and the word is computed. -/

namespace Sys2Proof.Machine

/-- `STATUS.FRAME_OPEN`: "reads 1 exactly when some `pushed[c]` is 1" (R29). -/
def frameOpen (s : State) : Bool := s.chans.any (·.pushed)

/-- `STATUS[7:0]`: bit 0 `FAULT`, 1 `BLOCK_READY`, 2 `OVR`, 3 `TP_TOUCHED`, 4 `FRAME_OPEN`, bits 7:5 zero (R29, R72). -/
def statusByte (s : State) : BitVec 8 :=
  0#3 ++ BitVec.ofBool (frameOpen s) ++ BitVec.ofBool s.tpTouched ++ BitVec.ofBool s.ovr ++ BitVec.ofBool s.blockReady
    ++ BitVec.ofBool s.fault

/-- `STATUS`, 64 bits; bits 63:5 read as 0 (R29). -/
def statusWord (s : State) : BitVec 64 := (statusByte s).zeroExtend 64

/-- The response word: `ST` as `STATUS` stands in `s`, and `DATA` (R72). -/
def responseWord (s : State) (data : BitVec 64) : RspWord := statusByte s ++ data

end Sys2Proof.Machine
end

