-- ==== Sys2Proof/WellFormed.lean ====
section
/-! DEFINITION. Which commands are well formed: what R73 checks of a word alone, before it looks at the instance or the state. -/

namespace Sys2Proof

/-- R74, R75: the command's `CH` field must be zero. -/
def Instr.chMustBeZero : Instr → Bool
  | .nop _ _ => true
  | .frst _ _ => false
  | .fproc _ _ => false
  | .rdfs _ _ => false
  | .push _ _ => false
  | .msq _ _ => false
  | .wsum _ _ => true
  | .rdblk _ _ => false
  | .rdblke _ _ => true
  | .blkack _ _ => true
  | .crst _ _ => false
  | .mrst _ _ => true
  | .rdbuf _ _ => false
  | .rdw _ _ => false
  | .tpin _ _ => true
  | .tprun _ _ => true
  | .tprd _ _ => true
  | .tprst _ _ => true
  | .rdreg _ _ => false

/-- R74, R75: the command's `DATA` field must be zero. -/
def Instr.dataMustBeZero : Instr → Bool
  | .nop _ _ => true
  | .frst _ _ => true
  | .fproc _ _ => false
  | .rdfs _ _ => false
  | .push _ _ => false
  | .msq _ _ => true
  | .wsum _ _ => true
  | .rdblk _ _ => true
  | .rdblke _ _ => true
  | .blkack _ _ => true
  | .crst _ _ => true
  | .mrst _ _ => true
  | .rdbuf _ _ => false
  | .rdw _ _ => true
  | .tpin _ _ => false
  | .tprun _ _ => true
  | .tprd _ _ => true
  | .tprst _ _ => true
  | .rdreg _ _ => true

/-- The `CH` field of the command's word (R70). -/
def Instr.ch : Instr → BitVec 8
  | .nop ch _ => ch
  | .frst ch _ => ch
  | .fproc ch _ => ch
  | .rdfs ch _ => ch
  | .push ch _ => ch
  | .msq ch _ => ch
  | .wsum ch _ => ch
  | .rdblk ch _ => ch
  | .rdblke ch _ => ch
  | .blkack ch _ => ch
  | .crst ch _ => ch
  | .mrst ch _ => ch
  | .rdbuf ch _ => ch
  | .rdw ch _ => ch
  | .tpin ch _ => ch
  | .tprun ch _ => ch
  | .tprd ch _ => ch
  | .tprst ch _ => ch
  | .rdreg ch _ => ch

/-- The `DATA` field of the command's word (R70). -/
def Instr.data : Instr → BitVec 64
  | .nop _ data => data
  | .frst _ data => data
  | .fproc _ data => data
  | .rdfs _ data => data
  | .push _ data => data
  | .msq _ data => data
  | .wsum _ data => data
  | .rdblk _ data => data
  | .rdblke _ data => data
  | .blkack _ data => data
  | .crst _ data => data
  | .mrst _ data => data
  | .rdbuf _ data => data
  | .rdw _ data => data
  | .tpin _ data => data
  | .tprun _ data => data
  | .tprd _ data => data
  | .tprst _ data => data
  | .rdreg _ data => data

/-- R75 holds of the word: its must-be-zero fields are zero. -/
def Instr.reservedZero (i : Instr) : Bool :=
  (!i.chMustBeZero || i.ch == 0) && (!i.dataMustBeZero || i.data == 0)

/-- The indices of the register map of R202. -/
def regIndexDefined (idx : BitVec 8) : Bool :=
  let k := idx.toNat
  k ≤ 0x06 || (0x10 ≤ k && k ≤ 0x17) || (0x20 ≤ k && k ≤ 0x24) || (0x28 ≤ k && k ≤ 0x2C) || k == 0x30 || k == 0x31

/-- The index bounds of R73 step 5 that no parameter enters: `RDFS` has four selectors (R112), `RDREG` the indices of R202.
The bound of `RDBUF` is the instance's `N`, so it is checked where the command runs. -/
def Instr.indexInRange : Instr → Bool
  | .rdfs _ data => decide (data.toNat < 4)
  | .rdreg ch _ => regIndexDefined ch
  | .nop _ _ => true
  | .frst _ _ => true
  | .fproc _ _ => true
  | .push _ _ => true
  | .msq _ _ => true
  | .wsum _ _ => true
  | .rdblk _ _ => true
  | .rdblke _ _ => true
  | .blkack _ _ => true
  | .crst _ _ => true
  | .mrst _ _ => true
  | .rdbuf _ _ => true
  | .rdw _ _ => true
  | .tpin _ _ => true
  | .tprun _ _ => true
  | .tprd _ _ => true
  | .tprst _ _ => true

/-- Well formed: the must-be-zero fields are zero and an index bounded by the encoding is in range. -/
def Instr.wellFormed (i : Instr) : Bool :=
  i.reservedZero && i.indexInRange

end Sys2Proof
end

