-- ==== Sys2Proof/Decode.lean ====
section
/-! DEFINITION. The decoder of R73 step 1 (total: an opcode that R74 does not list is rejected by name), the encoder, the
serialised form of R54, and `decodeTableWord`. -/

namespace Sys2Proof

/-- Why a word or a byte string is no command. -/
inductive DecodeError where
  /-- R76: the `OP` field is not one of the 19 opcodes. The block answers with `ILLEGAL_OP`. -/
  | illegalOp (op : BitVec 8)
  /-- A serialised word (R54) has ten bytes; the list ends earlier. -/
  | truncated
  deriving DecidableEq, Repr

/-- `OP`, bits 79:72 (R70). -/
def opField (w : CmdWord) : BitVec 8 := w.extractLsb' 72 8

/-- `CH`, bits 71:64 (R70). -/
def chField (w : CmdWord) : BitVec 8 := w.extractLsb' 64 8

/-- `DATA`, bits 63:0 (R70). -/
def dataField (w : CmdWord) : BitVec 64 := w.extractLsb' 0 64

/-- The constructor of an opcode (R74). -/
def instrOf (op : BitVec 8) (ch : BitVec 8) (data : BitVec 64) : Option Instr :=
  match op.toNat with
  | 0x00 => some (.nop ch data)
  | 0x01 => some (.frst ch data)
  | 0x02 => some (.fproc ch data)
  | 0x03 => some (.rdfs ch data)
  | 0x10 => some (.push ch data)
  | 0x11 => some (.msq ch data)
  | 0x12 => some (.wsum ch data)
  | 0x13 => some (.rdblk ch data)
  | 0x14 => some (.rdblke ch data)
  | 0x15 => some (.blkack ch data)
  | 0x16 => some (.crst ch data)
  | 0x17 => some (.mrst ch data)
  | 0x18 => some (.rdbuf ch data)
  | 0x19 => some (.rdw ch data)
  | 0x20 => some (.tpin ch data)
  | 0x21 => some (.tprun ch data)
  | 0x22 => some (.tprd ch data)
  | 0x23 => some (.tprst ch data)
  | 0x30 => some (.rdreg ch data)
  | _ => none

/-- The decoder. It never looks at `CH` or `DATA`: "a non-zero must-be-zero field does not select another command, it
faults" (R74, after the table). -/
def decode (w : CmdWord) : Except DecodeError Instr :=
  match instrOf (opField w) (chField w) (dataField w) with
  | some i => .ok i
  | none => .error (.illegalOp (opField w))

/-- The opcode of a command (R74). -/
def Instr.opcode : Instr → BitVec 8
  | .nop _ _ => 0x00
  | .frst _ _ => 0x01
  | .fproc _ _ => 0x02
  | .rdfs _ _ => 0x03
  | .push _ _ => 0x10
  | .msq _ _ => 0x11
  | .wsum _ _ => 0x12
  | .rdblk _ _ => 0x13
  | .rdblke _ _ => 0x14
  | .blkack _ _ => 0x15
  | .crst _ _ => 0x16
  | .mrst _ _ => 0x17
  | .rdbuf _ _ => 0x18
  | .rdw _ _ => 0x19
  | .tpin _ _ => 0x20
  | .tprun _ _ => 0x21
  | .tprd _ _ => 0x22
  | .tprst _ _ => 0x23
  | .rdreg _ _ => 0x30

/-- The word of a command: `OP ++ CH ++ DATA` (R70). -/
def encode (i : Instr) : CmdWord := i.opcode ++ i.ch ++ i.data

/-- The serialised form of a word, most significant byte first (R54): `OP`, `CH`, then `DATA[63:56]` down to `DATA[7:0]`. -/
def wordBytes (w : CmdWord) : List Byte :=
  [w.extractLsb' 72 8, w.extractLsb' 64 8, w.extractLsb' 56 8, w.extractLsb' 48 8, w.extractLsb' 40 8,
   w.extractLsb' 32 8, w.extractLsb' 24 8, w.extractLsb' 16 8, w.extractLsb' 8 8, w.extractLsb' 0 8]

/-- The serialised form of a response word (R54): `ST`, then `DATA[63:56]` down to `DATA[7:0]`. -/
def responseBytes (r : RspWord) : List Byte :=
  [r.extractLsb' 64 8, r.extractLsb' 56 8, r.extractLsb' 48 8, r.extractLsb' 40 8, r.extractLsb' 32 8,
   r.extractLsb' 24 8, r.extractLsb' 16 8, r.extractLsb' 8 8, r.extractLsb' 0 8]

/-- The word of ten bytes, first byte most significant (R54). -/
def wordOfBytes (b0 b1 b2 b3 b4 b5 b6 b7 b8 b9 : Byte) : CmdWord :=
  b0 ++ b1 ++ b2 ++ b3 ++ b4 ++ b5 ++ b6 ++ b7 ++ b8 ++ b9

/-- Decode the serialised form: the command and the bytes after it. Total on any bytes. -/
def decodeBytes : List Byte → Except DecodeError (Instr × List Byte)
  | b0 :: b1 :: b2 :: b3 :: b4 :: b5 :: b6 :: b7 :: b8 :: b9 :: rest =>
    match decode (wordOfBytes b0 b1 b2 b3 b4 b5 b6 b7 b8 b9) with
    | .ok i => .ok (i, rest)
    | .error e => .error e
  | _ => .error .truncated

/-- The 80-bit word that bits `0` to `nbits - 1` of `w` give, every bit above them zero. An instruction is ONE word, so the
table's numbering (bit 0 least significant) is the word's own (R14, R70). -/
def tableWord (nbits w : Nat) : CmdWord := BitVec.ofNat 80 (w % 2 ^ nbits)

/-- What the decoder reads from a word numbered as spec/opcode_table.json numbers it. -/
def decodeTableWord (nbits w : Nat) : Option Instr :=
  match decode (tableWord nbits w) with
  | .ok i => some i
  | .error _ => none

end Sys2Proof
end

