-- ==== Sys2Proof/Machine/Float.lean ====
section
/-! DEFINITION. IEEE 754 binary64 as R15 and R105 to R109 give it: every operation computes the exact result in integers and
rounds it once, to nearest, ties to even. No flags, no flush to zero, no fusion. -/

namespace Sys2Proof.Machine

/-- The pattern of `+∞`; above it, with the sign bit cleared, lie the NaNs. -/
def infMag : Nat := 0x7FF0000000000000

/-- Bits 62:0 of a pattern. -/
def mag (a : F64) : Nat := a.toNat % 2 ^ 63

/-- Bit 63. -/
def sign (a : F64) : Bool := a.msb

def isNan (a : F64) : Bool := decide (infMag < mag a)

def isInf (a : F64) : Bool := mag a == infMag

def isFinite (a : F64) : Bool := decide (mag a < infMag)

def isZero (a : F64) : Bool := mag a == 0

/-- A NaN whose leading fraction bit is set. -/
def isQuietNan (a : F64) : Bool := decide (0x7FF8000000000000 ≤ mag a)

/-- The magnitude of a finite value in units of `2^-1074`, the smallest subnormal: every finite binary64 value is a whole
number of them. -/
def units (a : F64) : Nat :=
  if mag a / 2 ^ 52 = 0 then mag a else (2 ^ 52 + mag a % 2 ^ 52) * 2 ^ (mag a / 2 ^ 52 - 1)

/-- How many units are 1.0. -/
def unitScale : Nat := 2 ^ 1074

/-- The exact value of a finite pattern, in units of `2^-1074`. -/
def exact (a : F64) : Int := if sign a then -(units a : Int) else units a

/-- The pattern with the given sign and bits 62:0. -/
def pack (neg : Bool) (m : Nat) : F64 := BitVec.ofNat 64 ((if neg then 2 ^ 63 else 0) + m)

/-- The integer nearest `num / den`, ties to even. -/
def halfEven (num den : Nat) : Nat :=
  let q := num / den
  let r := num % den
  if den < 2 * r ∨ (2 * r = den ∧ q % 2 = 1) then q + 1 else q

/-- How many bits of the whole part of `num / den` (in units of `2^-1074`) lie below a 53-bit significand. -/
def excess (num den : Nat) : Nat := (num / den).log2 - 52

/-- Bits 62:0 of the binary64 value nearest `num / den` units, ties to even (R105): the significand is rounded at the spacing
`2^excess` of its binade, and a result past the largest finite value is infinite (R107). With `k` the excess and `m` the rounded
significand the bits are `k * 2^52 + m`, also where `m` is subnormal or has rounded up to `2^53`. -/
def roundMag (num den : Nat) : Nat :=
  let k := excess num den
  min (k * 2 ^ 52 + halfEven num (den * 2 ^ k)) infMag

/-- The quiet NaN that operation `k` of the command with draw number `d` produces: sign and payload are free (R106). -/
def nanAt (d k : Nat) : F64 :=
  (Config.freeNan d k).extractLsb' 51 1 ++ 0xFFF#12 ++ (Config.freeNan d k).extractLsb' 0 51

/-- The sign bit flipped. -/
def fneg (a : F64) : F64 := a ^^^ 0x8000000000000000

/-- `fabs(a)`: clear bit 63 (R15). -/
def fabs (a : F64) : F64 := a &&& 0x7FFFFFFFFFFFFFFF

/-- The sum of two finite values. An exact zero sum is `-0` only where both operands are `-0` (R108). -/
def addFinite (a b : F64) : F64 :=
  if exact a + exact b = 0 then pack (sign a && sign b) 0
  else pack (decide (exact a + exact b < 0)) (roundMag (exact a + exact b).natAbs 1)

/-- `fadd(a, b)` (R15, R105 to R108); `d` and `k` number the NaN it may draw. -/
def fadd (d k : Nat) (a b : F64) : F64 :=
  if isNan a || isNan b then nanAt d k
  else if isInf a then (if isInf b && (sign a != sign b) then nanAt d k else a)
  else if isInf b then b
  else addFinite a b

/-- `fsub(a, b)`. -/
def fsub (d k : Nat) (a b : F64) : F64 := fadd d k a (fneg b)

/-- `fmul(a, b)`. -/
def fmul (d k : Nat) (a b : F64) : F64 :=
  if isNan a || isNan b then nanAt d k
  else if isInf a || isInf b then
    (if isZero a || isZero b then nanAt d k else pack (sign a != sign b) infMag)
  else pack (sign a != sign b) (roundMag (units a * units b) unitScale)

/-- `fdiv(a, b)`. -/
def fdiv (d k : Nat) (a b : F64) : F64 :=
  if isNan a || isNan b then nanAt d k
  else if isInf a then (if isInf b then nanAt d k else pack (sign a != sign b) infMag)
  else if isInf b then pack (sign a != sign b) 0
  else if isZero b then (if isZero a then nanAt d k else pack (sign a != sign b) infMag)
  else pack (sign a != sign b) (roundMag (units a * unitScale) (units b))

/-- The place of a pattern that is no NaN in the order of the values; both zeros are at 0. -/
def order (a : F64) : Int := if sign a then -(mag a : Int) else mag a

/-- `fgt(a, b)`: "a greater than b", false when either is NaN (R15). -/
def fgt (a b : F64) : Bool := !isNan a && !isNan b && decide (order b < order a)

/-- `u2f(n)`: the integer `n` as binary64 (R15), to nearest where it is not exact. -/
def u2f (n : Nat) : F64 := pack false (roundMag (n * unitScale) 1)

/-- The binary64 value nearest the decimal `±m * 10^e`, ties to even (R79). -/
def decimal (neg : Bool) (m : Nat) (e : Int) : F64 :=
  pack neg (match e with
    | .ofNat k => roundMag (m * 10 ^ k * unitScale) 1
    | .negSucc k => roundMag (m * unitScale) (10 ^ (k + 1)))

end Sys2Proof.Machine
end

