-- ==== Sys2Proof/Machine/Params.lean ====
section
/-! DEFINITION. What is computed from the parameters of R8, which parameter sets are an instance (R10), and the weight of a
channel position (R36, R37). -/

namespace Sys2Proof

/-- `N`, the buffer length in samples: `2*FS/5` in mode BLOCK, `WIN_MS*FS/1000` in mode CIRC (R8). -/
def Config.bufLen (c : Config) : Nat :=
  match c.mode with
  | .block => 2 * c.fs / 5
  | .circ => c.winMs * c.fs / 1000

/-- `H`, the hop: `FS/10` in mode BLOCK, 0 in mode CIRC (R8). -/
def Config.hop (c : Config) : Nat :=
  match c.mode with
  | .block => c.fs / 10
  | .circ => 0

/-- `OV = N - H`, the retained length (R8). -/
def Config.retained (c : Config) : Nat := c.bufLen - c.hop

/-- `TP_RATIO = 192000 / FS`, the fixed conversion ratio of the resampler, exact (R8, R176). -/
def Config.tpRatio (c : Config) : Rat := 192000 / c.fs

/-- What the resampler was constructed with before the block left reset (R176, R273). `Config.rsAccepted` says that it accepted
exactly this (R10, `ratio_supported`); how it decides the spec cannot evaluate. -/
def Config.construction (c : Config) : Construction where
  ratio := c.tpRatio
  channels := c.tpNch
  quality := c.rsQuality

/-- The capacity of `TPI`, `TP_MAXBUF * TP_NCH` (R8). -/
def Config.tpCap (c : Config) : Nat := c.tpMaxbuf * c.tpNch

/-- The default of `TP_OCAP`, `ceil(TP_MAXBUF * 192000 / FS)` (R8), that is `ceil(TP_MAXBUF * TP_RATIO)`. -/
def Config.defaultOcap (tpMaxbuf fs : Nat) : Nat := (tpMaxbuf * 192000 + fs - 1) / fs

/-- The weight 1.41 (R8, R36). -/
def weightSurround : F64 := 0x3FF68F5C28F5C28F

/-- The weight 1.0 (R8, R36). -/
def weightFront : F64 := 0x3FF0000000000000

/-- Every coefficient is a finite value. R104 says that any finite values are acceptable and nothing of an infinity or a NaN
as a coefficient, nor do R8, R10 and U7: that such a set is no instance is the model's DESIGN CHOICE (log entry 23). -/
def Coef.finite (k : Coef) : Bool :=
  Machine.isFinite k.a1 && Machine.isFinite k.a2 && Machine.isFinite k.b0 && Machine.isFinite k.b1 && Machine.isFinite k.b2

/-- R8 for the mode: BLOCK needs `FS mod 10 = 0`; CIRC needs `WIN_MS >= 400` and an integral `N`. -/
def Config.modeOk (c : Config) : Bool :=
  match c.mode with
  | .block => c.fs % 10 == 0
  | .circ => decide (400 ≤ c.winMs) && c.winMs * c.fs % 1000 == 0

/-- The parameter set is an instance: the constraints of R8 and the resampler's acceptance (R10). That a coefficient which is
not finite makes it none is a DESIGN CHOICE (log entry 23). -/
def Config.valid (c : Config) : Bool :=
  decide (10 ≤ c.fs) && decide (1 ≤ c.nch) && decide (c.nch ≤ 256) && c.modeOk
    && decide (4 ≤ c.bufLen) && decide (c.bufLen < 2 ^ 32)
    && c.w.length == c.nch && c.w.all (fun x => x == weightSurround || x == weightFront)
    && c.coef1.finite && c.coef2.finite
    && decide (1 ≤ c.tpNch) && decide (c.tpNch ≤ 256) && decide (1 ≤ c.tpMaxbuf) && decide (c.tpCap < 2 ^ 32)
    && c.rsAccepted

/-- The weight of a channel at a position in degrees, compared as given, with no normalisation (R36). -/
def weightAt (azimuth elevation : Rat) : F64 :=
  if |elevation| < 30 ∧ 60 ≤ |azimuth| ∧ |azimuth| ≤ 120 then weightSurround else weightFront

/-- The standard presets the source names (R37). -/
inductive Speaker where
  | left
  | right
  | centre
  | leftSurround
  | rightSurround
  deriving DecidableEq, Repr

/-- The outcome R37 states for each preset; their angles are not in the source and are not needed. -/
def Speaker.weight : Speaker → F64
  | .left => weightFront
  | .right => weightFront
  | .centre => weightFront
  | .leftSurround => weightSurround
  | .rightSurround => weightSurround

end Sys2Proof
end

