-- ==== Sys2Proof/Machine/Operands.lean ====
section
/-! DEFINITION. The operand forms of R71 and R74 and the checks of R73 steps 3 to 5, in their order. -/

namespace Sys2Proof.Machine

/-- How a command uses its `CH` field (R74). -/
inductive ChUse where
  /-- "zero": all 8 bits must be 0 (R75). -/
  | zero
  /-- "names ch": must be below `NCH` (R73 step 4). -/
  | channel
  /-- `RDREG`'s register index (R201). -/
  | register
  deriving DecidableEq, Repr

/-- How a command uses its `DATA` field (R71). -/
inductive DataUse where
  /-- (a) a binary64 sample: any of the 2^64 patterns is legal. -/
  | sample
  /-- (b) an unsigned 64-bit index, compared with its bound without truncation. -/
  | index (bound : Nat)
  /-- (c) all 64 bits must be 0 (R75). -/
  | zero
  deriving DecidableEq, Repr

/-- R75: the `CH` field breaks "must be zero". -/
def ChUse.reserved (u : ChUse) (ch : BitVec 8) : Bool :=
  match u with
  | .zero => ch != 0
  | .channel => false
  | .register => false

/-- R75: the `DATA` field breaks "must be zero". -/
def DataUse.reserved (u : DataUse) (data : BitVec 64) : Bool :=
  match u with
  | .zero => data != 0
  | .sample => false
  | .index _ => false

/-- R73 step 4: the command names a channel that the instance does not have. -/
def ChUse.badChannel (u : ChUse) (nch : Nat) (ch : BitVec 8) : Bool :=
  match u with
  | .channel => decide (nch ≤ ch.toNat)
  | .zero => false
  | .register => false

/-- The register indices of R202. -/
def regDefined (idx : BitVec 8) : Bool :=
  let k := idx.toNat
  decide (k ≤ 0x06) || (decide (0x10 ≤ k) && decide (k ≤ 0x17)) || (decide (0x20 ≤ k) && decide (k ≤ 0x24))
    || (decide (0x28 ≤ k) && decide (k ≤ 0x2C)) || k == 0x30 || k == 0x31

/-- R73 step 5: a register index that R202 does not define. -/
def ChUse.badIndex (u : ChUse) (ch : BitVec 8) : Bool :=
  match u with
  | .register => !regDefined ch
  | .zero => false
  | .channel => false

/-- R73 step 5: an index at or past its bound, all 64 bits compared (R71 (b)). -/
def DataUse.badIndex (u : DataUse) (data : BitVec 64) : Bool :=
  match u with
  | .index bound => decide (bound ≤ data.toNat)
  | .zero => false
  | .sample => false

/-- The first of the checks of R73 steps 3 to 5 that the word fails (R243). -/
def operandCause (cu : ChUse) (du : DataUse) (nch : Nat) (ch : BitVec 8) (data : BitVec 64) : Option Cause :=
  if cu.reserved ch || du.reserved data then some .reservedField
  else if cu.badChannel nch ch then some .badChannel
  else if cu.badIndex ch || du.badIndex data then some .badIndex
  else none

end Sys2Proof.Machine
end

