-- ==== Sys2Proof/Machine/Ops.lean ====
section
/-! DEFINITION. The operations the meanings are built from: elements of a storage space (R16), channels, responding (R16,
R72), taking a fault (R245), the fault state (R246), reset (R270), and the checks every command starts with (R73). There is no
return from a fault (R247): `rst` is the only way out. -/

namespace Sys2Proof.Machine

/-- `MemRead(m[i], 1)` (R16). -/
def Mem.read : Mem → Nat → F64
  | [], _ => 0
  | (j, v) :: rest, i => if j = i then v else Mem.read rest i

/-- `MemWrite(m[i], 1, v)` (R16), keeping the canonical form: writing `+0.0` removes the entry. -/
def Mem.write : Mem → Nat → F64 → Mem
  | [], i, v => if v = 0 then [] else [(i, v)]
  | (j, w) :: rest, i, v =>
    if i < j then (if v = 0 then (j, w) :: rest else (i, v) :: (j, w) :: rest)
    else if i = j then (if v = 0 then rest else (i, v) :: rest)
    else (j, w) :: Mem.write rest i v

/-- Every listed index is at least `lo`, indices rise strictly, and no listed element is `+0.0`. -/
def Mem.wfFrom : Nat → Mem → Bool
  | _, [] => true
  | lo, (j, v) :: rest => decide (lo ≤ j) && v != 0 && Mem.wfFrom (j + 1) rest

/-- The canonical form. -/
def Mem.wf (m : Mem) : Bool := Mem.wfFrom 0 m

/-- Every listed index is below `n`. -/
def Mem.below (m : Mem) (n : Nat) : Bool := m.all (fun p => decide (p.1 < n))

/-- The elements `i .. i+n-1`, in order. -/
def Mem.slice (m : Mem) (i : Nat) : Nat → List F64
  | 0 => []
  | n + 1 => m.read i :: Mem.slice m (i + 1) n

/-- Channel `c`. Every caller has checked `c < NCH`; past the last channel it is the reset channel. -/
def State.chan (s : State) (c : Nat) : Channel := s.chans.getD c Channel.reset

/-- Replace channel `c` by what `f` makes of it. -/
def State.updChan (s : State) (c : Nat) (f : Channel → Channel) : State := { s with chans := s.chans.modify c f }

/-- `respond(data)`: append the response word, `ST` as `STATUS` stands after the command's effects (R16, R72). -/
def State.respond (s : State) (data : BitVec 64) : State := { s with rsps := s.rsps ++ [responseWord s data] }

/-- A command that draws free values leaves the counter one higher, so that no two commands share a free value. -/
def State.drawn (s : State) : State := { s with draws := s.draws + 1 }

/-- The codes of R241. -/
def Cause.code : Cause → BitVec 8
  | .illegalOp => 0x01
  | .reservedField => 0x02
  | .badChannel => 0x03
  | .badIndex => 0x04
  | .frameSeq => 0x05
  | .tpBufOver => 0x06
  | .tpFramePartial => 0x07

/-- The fault record: `CH` in bits 23:16, `OP` in 15:8, the cause in 7:0, the rest zero (R30, R245). -/
def faultRecord (cause : Cause) (op ch : BitVec 8) : BitVec 64 := (ch ++ op ++ cause.code).zeroExtend 64

/-- `raise Fault(cause)` for the command word `op ++ ch ++ data`. Outside the fault state: record the word, set
`STATUS.FAULT`, respond 0, change nothing else (R245). Inside it the first fault is kept and only the response is given
(R246). -/
def State.raise (s : State) (cause : Cause) (op ch : BitVec 8) (data : BitVec 64) : State :=
  if s.fault then s.respond 0
  else { s with fault := true, faultReg := faultRecord cause op ch, fdata := data }.respond 0

/-- `rst` (R270): every piece of the block's state gets its value of R39. The parameters are untouched; what the host and the
resampler still have to send, what has been sent to them, and the numbering of the free values are not the block's state.
A `TPRUN` that waits is abandoned without a response: `waiting` is false after. -/
def State.rst (s : State) : State :=
  { State.resetOf s.cfg with
    port := s.port, rsps := s.rsps, replies := s.replies, requests := s.requests, draws := s.draws }

/-- R246: the two commands the block executes in the fault state, `NOP` and `RDREG`. -/
def runsInFault (op : BitVec 8) : Bool := op == 0x00 || op == 0x30

/-- R73 steps 2 to 6 for the command `i`: in the fault state respond 0 unless `i` runs there; then the operand checks, the
first failing one raised; then the command's own rule. -/
def command (i : Instr) (cu : ChUse) (du : DataUse) (body : State → Result) (s : State) : Result :=
  if s.fault && !runsInFault i.opcode then .next (s.respond 0)
  else
    match operandCause cu du s.cfg.nch i.ch i.data with
    | some cause => .next (s.raise cause i.opcode i.ch i.data)
    | none => body s

end Sys2Proof.Machine
end

