-- ==== Sys2Proof/Machine/Filter.lean ====
section
/-! DEFINITION. The K-weighting filter: `FRST`, `FPROC`, `RDFS` (40_filter.md). -/

namespace Sys2Proof.Machine

/-- What one stage computes from a sample: the intermediate `v`, which becomes `prev`, and the output `y` (R100). -/
structure StageOut where
  v : F64
  y : F64
  deriving DecidableEq, Repr

/-- `Stage(c, s, x)` of R100 on the old `prev = p` and `last = l`: nine operations, each rounded, grouped left to right, none
fused. They are numbered `k .. k+8` in the command with draw number `d`. -/
def stage (d k : Nat) (co : Coef) (p l x : F64) : StageOut :=
  let t1 := fmul d k co.a1 p
  let t2 := fsub d (k + 1) x t1
  let t3 := fmul d (k + 2) co.a2 l
  let v := fsub d (k + 3) t2 t3
  let u1 := fmul d (k + 4) v co.b0
  let u2 := fmul d (k + 5) p co.b1
  let u3 := fadd d (k + 6) u1 u2
  let u4 := fmul d (k + 7) l co.b2
  { v := v, y := fadd d (k + 8) u3 u4 }

/-- `Cascade(c, x)` of R101: stage 1 (shelf), then stage 2 (RLB) on its output. Answers the channel with its four registers
updated (`last <- P`, `prev <- v` in each stage) and the filtered sample. -/
def cascade (d : Nat) (c : Config) (k : Channel) (x : F64) : Channel × F64 :=
  let o1 := stage d 0 c.coef1 k.prev1 k.last1 x
  let o2 := stage d 9 c.coef2 k.prev2 k.last2 o1.y
  ({ k with prev1 := o1.v, last1 := k.prev1, prev2 := o2.v, last2 := k.prev2 }, o2.y)

/-- Both stages' `prev` and `last` to `+0.0` (R110). -/
def Channel.clearFilter (k : Channel) : Channel := { k with prev1 := 0, last1 := 0, prev2 := 0, last2 := 0 }

/-- The register a selector of `RDFS` names (R21, R112): 0 `prev` stage 1, 1 `last` stage 1, 2 `prev` stage 2, 3 `last` stage 2. -/
def Channel.filterReg (k : Channel) (sel : Nat) : F64 :=
  match sel with
  | 0 => k.prev1
  | 1 => k.last1
  | 2 => k.prev2
  | _ => k.last2

/-- `FRST ch` (R110). -/
def execFrst (ch : BitVec 8) (data : BitVec 64) (s : State) : Result :=
  command (.frst ch data) .channel .zero (fun s => .next ((s.updChan ch.toNat Channel.clearFilter).respond 0)) s

/-- `FPROC ch, x` (R111): the cascade, and nothing but the four filter registers of the channel changes. -/
def execFproc (ch : BitVec 8) (data : BitVec 64) (s : State) : Result :=
  command (.fproc ch data) .channel .sample (fun s =>
    .next ((s.updChan ch.toNat (fun k => (cascade s.draws s.cfg k data).1)).drawn.respond
      (cascade s.draws s.cfg (s.chan ch.toNat) data).2)) s

/-- `RDFS ch, sel` (R112). -/
def execRdfs (ch : BitVec 8) (data : BitVec 64) (s : State) : Result :=
  command (.rdfs ch data) .channel (.index 4) (fun s =>
    .next (s.respond ((s.chan ch.toNat).filterReg data.toNat))) s

end Sys2Proof.Machine
end

