-- ==== Sys2Proof/Machine/Accumulator.lean ====
section
/-! DEFINITION. The channel processor and block energy accumulator: `PUSH`, `MSQ`, `WSUM`, `RDBLK`, `RDBLKE`, `BLKACK`,
`CRST`, `MRST`, `RDBUF`, `RDW` (41_channel_accumulator.md). -/

namespace Sys2Proof.Machine

/-- The loop of R136 from index `i` for `n` more elements: each square rounded, each addition rounded, index ascending. The
operations of element `i` are numbered `base + 2*i` and `base + 2*i + 1`. -/
def sumSquares (d base : Nat) (buf : Mem) : Nat → Nat → F64 → F64
  | 0, _, acc => acc
  | n + 1, i, acc =>
    sumSquares d base buf n (i + 1)
      (fadd d (base + 2 * i + 1) acc (fmul d (base + 2 * i) (buf.read i) (buf.read i)))

/-- `MeanSquare(c)` of R136 over all `n` elements of a buffer: a fresh sum from `+0.0`, then one division by `n`. -/
def meanSquare (d base n : Nat) (buf : Mem) : F64 :=
  fdiv d (base + 2 * n) (sumSquares d base buf n 0 0) (u2f n)

/-- `WeightedSum(m)` of R137, channel ascending: product, then addition, each rounded. -/
def weightedSum (d : Nat) : Nat → F64 → List F64 → List F64 → F64
  | base, acc, w :: ws, m :: ms => weightedSum d (base + 2) (fadd d (base + 1) acc (fmul d base w m)) ws ms
  | _, acc, _, _ => acc

/-- The number of the first operation of channel `c`'s mean square: operations 0 to 17 are a cascade's, and a mean square has
`2n + 1` of them. At `c = NCH` it is the first operation of the weighted sum. -/
def meanSite (n c : Nat) : Nat := 18 + c * (2 * n + 1)

/-- `MeanSquare(c)` for every channel, channel 0 first. -/
def State.meanSquares (s : State) : List F64 :=
  s.chans.mapIdx (fun c k => meanSquare s.draws (meanSite s.cfg.bufLen c) s.cfg.bufLen k.buf)

/-- `WeightedSum` of the channels' mean squares (R139, R133). -/
def State.energy (s : State) : F64 :=
  weightedSum s.draws (meanSite s.cfg.bufLen s.cfg.nch) 0 s.cfg.w s.meanSquares

/-- The inner loop of `Shift()` (R134) from index `i` for `n` more elements: `BUF[i] <- BUF[i + h]`. -/
def shiftBuf (h : Nat) : Nat → Nat → Mem → Mem
  | 0, _, buf => buf
  | n + 1, i, buf => shiftBuf h n (i + 1) (buf.write i (buf.read (i + h)))

/-- `blk_ms[c] <- MeanSquare(c)` for every channel, over the full buffers (R133, first line). -/
def State.latchMeans (s : State) : State :=
  { s with chans := s.chans.mapIdx (fun c k =>
      { k with blkMs := meanSquare s.draws (meanSite s.cfg.bufLen c) s.cfg.bufLen k.buf }) }

/-- `Shift()` (R134): elements `0 .. N-H-1` of every buffer take what stood `H` places later, the rest stay. -/
def State.shiftBuffers (s : State) : State :=
  { s with chans := s.chans.map (fun k => { k with buf := shiftBuf s.cfg.hop s.cfg.retained 0 k.buf }) }

/-- `BlockComplete()` (R133): latch the means and the energy, note an overrun, count, shift, resume at `N - H`. -/
def State.blockComplete (s : State) : State :=
  let latched := { s.latchMeans with blkE := s.energy }
  let flagged := { latched with ovr := s.ovr || s.blockReady, blockReady := true, blkCnt := s.blkCnt + 1 }
  { flagged.shiftBuffers with wp := BitVec.ofNat 32 s.cfg.retained }

/-- `FrameCommit()` (R132, R135): clear `pushed`, advance the cursor; at `N` a block completes (BLOCK) or the cursor wraps
(CIRC). -/
def State.frameCommit (s : State) : State :=
  let opened := { s with chans := s.chans.map (fun k => { k with pushed := false }), wp := s.wp + 1 }
  if opened.wp.toNat = s.cfg.bufLen then
    match s.cfg.mode with
    | .block => opened.blockComplete
    | .circ => { opened with wp := 0 }
  else opened

/-- R131: every channel has its sample of the frame. -/
def State.frameFull (s : State) : Bool := s.chans.all (·.pushed)

/-- The middle of R131: filter the sample, store the result at the cursor, mark the channel. -/
def State.storeSample (s : State) (c : Nat) (x : F64) : State :=
  s.updChan c (fun k =>
    let r := cascade s.draws s.cfg k x
    { r.1 with buf := r.1.buf.write s.wp.toNat r.2, pushed := true })

/-- `PUSH ch, x` (R131). -/
def execPush (ch : BitVec 8) (data : BitVec 64) (s : State) : Result :=
  command (.push ch data) .channel .sample (fun s =>
    if (s.chan ch.toNat).pushed then .next (s.raise .frameSeq (Instr.push ch data).opcode ch data)
    else
      let stored := s.storeSample ch.toNat data
      let after := if stored.frameFull then stored.frameCommit else stored
      .next (after.drawn.respond (cascade s.draws s.cfg (s.chan ch.toNat) data).2)) s

/-- `MSQ ch` (R138). -/
def execMsq (ch : BitVec 8) (data : BitVec 64) (s : State) : Result :=
  command (.msq ch data) .channel .zero (fun s =>
    .next (s.drawn.respond
      (meanSquare s.draws (meanSite s.cfg.bufLen ch.toNat) s.cfg.bufLen (s.chan ch.toNat).buf))) s

/-- `WSUM` (R139). -/
def execWsum (ch : BitVec 8) (data : BitVec 64) (s : State) : Result :=
  command (.wsum ch data) .zero .zero (fun s => .next (s.drawn.respond s.energy)) s

/-- `RDBLK ch` (R140). -/
def execRdblk (ch : BitVec 8) (data : BitVec 64) (s : State) : Result :=
  command (.rdblk ch data) .channel .zero (fun s => .next (s.respond (s.chan ch.toNat).blkMs)) s

/-- `RDBLKE` (R141). -/
def execRdblke (ch : BitVec 8) (data : BitVec 64) (s : State) : Result :=
  command (.rdblke ch data) .zero .zero (fun s => .next (s.respond s.blkE)) s

/-- `BLKACK` (R142). -/
def execBlkack (ch : BitVec 8) (data : BitVec 64) (s : State) : Result :=
  command (.blkack ch data) .zero .zero (fun s =>
    .next ({ s with blockReady := false, ovr := false }.respond 0)) s

/-- `CRST ch` (R143): filters and every buffer element of the channel to `+0.0`. -/
def execCrst (ch : BitVec 8) (data : BitVec 64) (s : State) : Result :=
  command (.crst ch data) .channel .zero (fun s =>
    .next ((s.updChan ch.toNat (fun k => { k.clearFilter with buf := [] })).respond 0)) s

/-- The effect of `MRST` (R144): the loudness side to its reset values, the true-peak side and the fault record as they were. -/
def State.meterReset (s : State) : State :=
  { s with
    chans := s.chans.map (fun _ => Channel.reset), wp := 0, blkE := 0, blkCnt := 0, blockReady := false, ovr := false }

/-- `MRST` (R144). -/
def execMrst (ch : BitVec 8) (data : BitVec 64) (s : State) : Result :=
  command (.mrst ch data) .zero .zero (fun s => .next (s.meterReset.respond 0)) s

/-- `RDBUF ch, i` (R145): the bound is the instance's `N`. -/
def execRdbuf (ch : BitVec 8) (data : BitVec 64) (s : State) : Result :=
  command (.rdbuf ch data) .channel (.index s.cfg.bufLen) (fun s =>
    .next (s.respond ((s.chan ch.toNat).buf.read data.toNat))) s

/-- `RDW ch` (R146). -/
def execRdw (ch : BitVec 8) (data : BitVec 64) (s : State) : Result :=
  command (.rdw ch data) .channel .zero (fun s => .next (s.respond (s.cfg.w.getD ch.toNat 0))) s

end Sys2Proof.Machine
end

