-- ==== Sys2Proof/Machine/System.lean ====
section
/-! DEFINITION. The system commands `NOP` and `RDREG` and the register map (43_system.md). -/

namespace Sys2Proof.Machine

/-- `NPUSHED`: how many channels have their sample of the frame (R26, R202). -/
def State.npushed (s : State) : Nat := s.chans.countP (·.pushed)

/-- `CFG_MODE`: 0 = BLOCK, 1 = CIRC (R202). -/
def modeCode : Mode → Nat
  | .block => 0
  | .circ => 1

/-- The register map of R202: integers zero-extended, binary64 values as their patterns. A parameter of 2^64 or more is read
modulo 2^64, the model's reading (DEDUCED, log entry 16). `RDREG` has refused an index that
`regDefined` does not list; no register is there, and the value 0 below is never responded. -/
def regValue (s : State) (idx : BitVec 8) : BitVec 64 :=
  match idx.toNat with
  | 0x00 => statusWord s
  | 0x01 => s.faultReg
  | 0x02 => s.fdata
  | 0x03 => s.wp.zeroExtend 64
  | 0x04 => s.blkCnt
  | 0x05 => BitVec.ofNat 64 s.npushed
  | 0x06 => s.tpFill.zeroExtend 64
  | 0x10 => BitVec.ofNat 64 s.cfg.nch
  | 0x11 => BitVec.ofNat 64 s.cfg.fs
  | 0x12 => BitVec.ofNat 64 (modeCode s.cfg.mode)
  | 0x13 => BitVec.ofNat 64 s.cfg.bufLen
  | 0x14 => BitVec.ofNat 64 s.cfg.hop
  | 0x15 => BitVec.ofNat 64 s.cfg.tpNch
  | 0x16 => BitVec.ofNat 64 s.cfg.tpMaxbuf
  | 0x17 => BitVec.ofNat 64 s.cfg.tpOcap
  | 0x20 => s.cfg.coef1.a1
  | 0x21 => s.cfg.coef1.a2
  | 0x22 => s.cfg.coef1.b0
  | 0x23 => s.cfg.coef1.b1
  | 0x24 => s.cfg.coef1.b2
  | 0x28 => s.cfg.coef2.a1
  | 0x29 => s.cfg.coef2.a2
  | 0x2A => s.cfg.coef2.b0
  | 0x2B => s.cfg.coef2.b1
  | 0x2C => s.cfg.coef2.b2
  | 0x30 => s.cfg.gIn
  | 0x31 => s.cfg.gOut
  | _ => 0

/-- `NOP` (R200). -/
def execNop (ch : BitVec 8) (data : BitVec 64) (s : State) : Result :=
  command (.nop ch data) .zero .zero (fun s => .next (s.respond 0)) s

/-- `RDREG idx` (R201). -/
def execRdreg (ch : BitVec 8) (data : BitVec 64) (s : State) : Result :=
  command (.rdreg ch data) .register .zero (fun s => .next (s.respond (regValue s ch))) s

end Sys2Proof.Machine
end

