-- ==== Sys2Proof/Machine/TruePeak.lean ====
section
/-! DEFINITION. The true-peak front end and the resampler channel: `TPIN`, `TPRUN`, `TPRD`, `TPRST` (42_true_peak.md). -/

namespace Sys2Proof.Machine

/-- `TPIN x` (R171). -/
def execTpin (ch : BitVec 8) (data : BitVec 64) (s : State) : Result :=
  command (.tpin ch data) .zero .sample (fun s =>
    if s.tpFill.toNat = s.cfg.tpCap then .next (s.raise .tpBufOver (Instr.tpin ch data).opcode ch data)
    else
      let v := fmul s.draws 0 data s.cfg.gIn
      .next ({ s with tpi := s.tpi.write s.tpFill.toNat v, tpFill := s.tpFill + 1 }.drawn.respond v)) s

/-- The contract of R176 on an answer to a request of `f` frames: `used <= F`, `gen <= TP_OCAP`, `gen * TP_NCH` samples. -/
def replyConforms (c : Config) (f : Nat) (r : Reply) : Bool :=
  decide (r.used ≤ f) && decide (r.gen ≤ c.tpOcap) && r.out.length == r.gen * c.tpNch

/-- Cut an answer to the contract. An answer that keeps the contract is left as it is, so every such answer stays possible
(R177). -/
def cutReply (c : Config) (f : Nat) (r : Reply) : Reply :=
  let gen := min (min r.gen c.tpOcap) (r.out.length / c.tpNch)
  { used := min r.used f, gen := gen, out := r.out.take (gen * c.tpNch) }

/-- The scan of R172 and R173, in the order the samples came: `a = |out[j] * G_OUT|` replaces the maximum only if it is
greater in the IEEE sense. The product of sample `j` is operation `j`. -/
def peakScan (d : Nat) (gOut : F64) : Nat → F64 → List F64 → F64
  | _, gain, [] => gain
  | j, gain, x :: rest =>
    let a := fabs (fmul d j x gOut)
    peakScan d gOut (j + 1) (if fgt a gain then a else gain) rest

/-- `TPRUN` once the answer is there (R172): scan it, empty the buffer (its elements stay, R52), set `TP_TOUCHED`. `used` is
not used. -/
def State.finishRun (s : State) (r : Reply) : State :=
  { s with tpGain := peakScan s.draws s.cfg.gOut 0 s.tpGain r.out, tpFill := 0, tpTouched := true }

/-- The request of R176: `F` whole frames, the elements `TPI[0 .. tp_fill-1]`. -/
def State.request (s : State) : Request :=
  { frames := s.tpFill.toNat / s.cfg.tpNch, samples := s.tpi.slice 0 s.tpFill.toNat }

/-- `TPRUN` where the resampler never answers (R281, U5): the request is out, nothing is scanned, no response is given, and the
command stays in progress. `takeEvent` says what ends the wait. -/
def State.await (s : State) (rest : List ResamplerMove) : State :=
  { s with requests := s.requests ++ [s.request], replies := rest, waiting := true }

/-- `TPRUN` (R172): a partial frame faults before the resampler is called. Then the request goes out, and the resampler
answers: with the next answer of the environment, refused where it breaks the contract (U6); never, and the command waits (U5);
or, past the end of what the environment holds, with a free answer that keeps the contract (R177, R281). -/
def execTprun (ch : BitVec 8) (data : BitVec 64) (s : State) : Result :=
  command (.tprun ch data) .zero .zero (fun s =>
    if s.tpFill.toNat % s.cfg.tpNch ≠ 0 then .next (s.raise .tpFramePartial (Instr.tprun ch data).opcode ch data)
    else
      let asked := { s with requests := s.requests ++ [s.request] }
      match s.replies with
      | [] =>
        let done := asked.finishRun (cutReply s.cfg s.request.frames (Config.freeReply s.draws))
        .next (done.drawn.respond done.tpGain)
      | .silent :: rest => .next (s.await rest)
      | .answer r :: rest =>
        if replyConforms s.cfg s.request.frames r then
          let done := { asked with replies := rest }.finishRun r
          .next (done.drawn.respond done.tpGain)
        else .refused .resamplerBreach) s

/-- `TPRD` (R174). -/
def execTprd (ch : BitVec 8) (data : BitVec 64) (s : State) : Result :=
  command (.tprd ch data) .zero .zero (fun s => .next (s.respond s.tpGain)) s

/-- `TPRST` (R175): the resampler is not reset. -/
def execTprst (ch : BitVec 8) (data : BitVec 64) (s : State) : Result :=
  command (.tprst ch data) .zero .zero (fun s =>
    .next ({ s with tpGain := 0, tpFill := 0, tpTouched := false }.respond 0)) s

end Sys2Proof.Machine
end

