-- ==== Sys2Proof/Machine/Dispatch.lean ====
section
/-! DEFINITION. The dispatch: one arm per constructor of `Instr`, each one direct call of its meaning. -/

namespace Sys2Proof.Machine

def exec (i : Instr) (s : State) : Host.Outcome State Fault Refusal :=
  match i with
  | .nop ch data => Sys2Proof.Machine.execNop ch data s
  | .frst ch data => Sys2Proof.Machine.execFrst ch data s
  | .fproc ch data => Sys2Proof.Machine.execFproc ch data s
  | .rdfs ch data => Sys2Proof.Machine.execRdfs ch data s
  | .push ch data => Sys2Proof.Machine.execPush ch data s
  | .msq ch data => Sys2Proof.Machine.execMsq ch data s
  | .wsum ch data => Sys2Proof.Machine.execWsum ch data s
  | .rdblk ch data => Sys2Proof.Machine.execRdblk ch data s
  | .rdblke ch data => Sys2Proof.Machine.execRdblke ch data s
  | .blkack ch data => Sys2Proof.Machine.execBlkack ch data s
  | .crst ch data => Sys2Proof.Machine.execCrst ch data s
  | .mrst ch data => Sys2Proof.Machine.execMrst ch data s
  | .rdbuf ch data => Sys2Proof.Machine.execRdbuf ch data s
  | .rdw ch data => Sys2Proof.Machine.execRdw ch data s
  | .tpin ch data => Sys2Proof.Machine.execTpin ch data s
  | .tprun ch data => Sys2Proof.Machine.execTprun ch data s
  | .tprd ch data => Sys2Proof.Machine.execTprd ch data s
  | .tprst ch data => Sys2Proof.Machine.execTprst ch data s
  | .rdreg ch data => Sys2Proof.Machine.execRdreg ch data s

end Sys2Proof.Machine
end

