-- ==== Sys2Proof/Machine/Port.lean ====
section
/-! DEFINITION. What the block does with one event at its ports (R12, R13, R73 step 1, R270). -/

namespace Sys2Proof.Machine

/-- A word whose opcode R74 does not list: `ILLEGAL_OP`, whatever `CH` and `DATA` hold, or in the fault state a response and
nothing else (R73 step 1, R76, R246). -/
def illegalWord (w : CmdWord) (s : State) : Result :=
  .next (s.raise .illegalOp (opField w) (chField w) (dataField w))

/-- A command word: decoded, then executed with its response (R13, R73). -/
def acceptWord (w : CmdWord) (s : State) : Result :=
  match decode w with
  | .ok i => exec i s
  | .error _ => illegalWord w s

/-- One event. A parameter set that R10 does not accept is no instance, so nothing has a meaning (U7). While a `TPRUN` waits for
an answer that never comes no command is accepted (R13, U5), and `rst` abandons it (R270). `rst` has the same effect whatever
it abandons: "partial effects are erased by the reset". -/
def takeEvent (e : PortEvent) (s : State) : Result :=
  if s.cfg.valid then
    match e with
    | .cmd w => if s.waiting then .fault .resamplerSilent else acceptWord w s
    | .rst _ => .next s.rst
  else .refused .noInstance

end Sys2Proof.Machine
end

