-- ==== Sys2Proof/Machine/Step.lean ====
section
/-! DEFINITION. One step: the block takes the next event at its ports (R12, R13, R59). There is no program counter and no
fetch (R24). -/

namespace Sys2Proof.Machine

/-- One step. With nothing at the port the block is idle, or still waits (U5), and keeps all state (R255); otherwise the first
event is taken off the port and handled whole, response included (R13, R59). -/
def step (s : State) : Host.Outcome State Fault Refusal :=
  match s.port with
  | [] => .next s
  | e :: rest => takeEvent e { s with port := rest }

/-- `s` with the instruction of the table's numbering presented next at the command port: the host's part of R24, "a finite
list of command words supplied from outside" (log entry 3). No earlier command is in progress. -/
def State.withFetchWord (s : State) (nbits w : Nat) : State :=
  { s with port := .cmd (tableWord nbits w) :: s.port, waiting := false }

end Sys2Proof.Machine
end

