-- ==== Sys2Proof/Machine/Pseudo.lean ====
section
/-! DEFINITION. The pseudo-commands of R80 to R84: lists of commands, in the order the host presents them. There are no
others (R85). -/

namespace Sys2Proof.Machine

/-- `FRAME x0, x1, …` (R80): one `PUSH` for each channel, channel 0 first. -/
def frameCmds (xs : List F64) : List Instr := xs.mapIdx (fun c x => .push (BitVec.ofNat 8 c) x)

/-- `PROCI flat` (R81): element `f*NCH + c` is channel `c` of frame `f`. A list whose length is no multiple of `NCH` leaves
its last frame open, as R81 says of a host that sends one. -/
def proci (nch : Nat) (flat : List F64) : List Instr := flat.mapIdx (fun j x => .push (BitVec.ofNat 8 (j % nch)) x)

/-- `PROCD p` for `frames` frames (R82): frame by frame, `FRAME p[0][f], …, p[NCH-1][f]`. R82 gives `p` the full shape only:
that a channel list of fewer than `frames` samples is read as `+0.0` past its end, and the rest of a longer one is not read, is
the model's DESIGN CHOICE (log entry 19). -/
def procd (frames : Nat) (p : List (List F64)) : List Instr :=
  (List.range frames).flatMap (fun f => frameCmds (p.map (fun ch => ch.getD f 0)))

/-- `TAKEBLK` (R83): `RDBLK` of every channel, `RDBLKE`, `BLKACK`. -/
def takeblk (nch : Nat) : List Instr :=
  (List.range nch).map (fun c => .rdblk (BitVec.ofNat 8 c) 0) ++ [.rdblke 0 0, .blkack 0 0]

/-- `TPPROC b` (R84): a `TPIN` for each sample of the interleaved buffer, then `TPRUN`. -/
def tpproc (b : List F64) : List Instr := b.map (fun x => .tpin 0 x) ++ [.tprun 0 0]

end Sys2Proof.Machine
end

