-- ==== Sys2Proof/Safety.lean ====
section
/-! DEFINITION. The terms claims use: which command is proper in a state, what two states share, which states are legal, and
what makes a run successful. -/

namespace Sys2Proof.Machine

/-- R246: "a run that enters the fault state [is] failed". -/
def State.successful (s : State) : Bool := !s.fault

/-- R74: the command names a channel in its `CH` field. -/
def namesChannel : Instr → Bool
  | .nop _ _ => false
  | .frst _ _ => true
  | .fproc _ _ => true
  | .rdfs _ _ => true
  | .push _ _ => true
  | .msq _ _ => true
  | .wsum _ _ => false
  | .rdblk _ _ => true
  | .rdblke _ _ => false
  | .blkack _ _ => false
  | .crst _ _ => true
  | .mrst _ _ => false
  | .rdbuf _ _ => true
  | .rdw _ _ => true
  | .tpin _ _ => false
  | .tprun _ _ => false
  | .tprd _ _ => false
  | .tprst _ _ => false
  | .rdreg _ _ => false

/-- The bound that the command's `DATA` index must stay below, where it carries one (R74). -/
def indexBound (s : State) : Instr → Option Nat
  | .rdfs _ _ => some 4
  | .rdbuf _ _ => some s.cfg.bufLen
  | .nop _ _ => none
  | .frst _ _ => none
  | .fproc _ _ => none
  | .push _ _ => none
  | .msq _ _ => none
  | .wsum _ _ => none
  | .rdblk _ _ => none
  | .rdblke _ _ => none
  | .blkack _ _ => none
  | .crst _ _ => none
  | .mrst _ _ => none
  | .rdw _ _ => none
  | .tpin _ _ => none
  | .tprun _ _ => none
  | .tprd _ _ => none
  | .tprst _ _ => none
  | .rdreg _ _ => none

/-- R73 step 5: an index operand or a register index is out of range. -/
def indexOut (i : Instr) (s : State) : Bool :=
  (match indexBound s i with
   | some b => decide (b ≤ i.data.toNat)
   | none => false)
  || (match i with
      | .rdreg ch _ => !regIndexDefined ch
      | _ => false)

/-- The command's own condition (R131, R171, R172). -/
def ownCause (s : State) : Instr → Option Cause
  | .push ch _ => if (s.chan ch.toNat).pushed then some .frameSeq else none
  | .tpin _ _ => if s.tpFill.toNat = s.cfg.tpCap then some .tpBufOver else none
  | .tprun _ _ => if s.tpFill.toNat % s.cfg.tpNch = 0 then none else some .tpFramePartial
  | .nop _ _ => none
  | .frst _ _ => none
  | .fproc _ _ => none
  | .rdfs _ _ => none
  | .msq _ _ => none
  | .wsum _ _ => none
  | .rdblk _ _ => none
  | .rdblke _ _ => none
  | .blkack _ _ => none
  | .crst _ _ => none
  | .mrst _ _ => none
  | .rdbuf _ _ => none
  | .rdw _ _ => none
  | .tprd _ _ => none
  | .tprst _ _ => none
  | .rdreg _ _ => none

/-- The cause a decoded command raises in `s`, by the priority of R243: `RESERVED_FIELD`, `BAD_CHANNEL`, `BAD_INDEX`, the
command's own. -/
def firstCause (i : Instr) (s : State) : Option Cause :=
  if !i.reservedZero then some .reservedField
  else if namesChannel i && decide (s.cfg.nch ≤ i.ch.toNat) then some .badChannel
  else if indexOut i s then some .badIndex
  else ownCause s i

/-- The command executes its own rule in `s`: the block is not in the fault state and no condition of R243 holds. -/
def Proper (i : Instr) (s : State) : Prop := s.fault = false ∧ firstCause i s = none

/-- The command that led from `s` to `t` gave one response: `ST` is `STATUS[7:0]` of `t`, `DATA` is `data` (R13, R72). -/
def Answers (s t : State) (data : BitVec 64) : Prop := t.rsps = s.rsps ++ [statusByte t ++ data]

/-- The loudness side is the same: filters, buffers, cursor, frame mask, latches, `BLKCNT`, `BLOCK_READY`, `OVR`. -/
def SameLoudness (s t : State) : Prop :=
  t.chans = s.chans ∧ t.wp = s.wp ∧ t.blkE = s.blkE ∧ t.blkCnt = s.blkCnt ∧ t.blockReady = s.blockReady ∧ t.ovr = s.ovr

/-- The true-peak side is the same: `tp_gain`, `TPI`, `tp_fill`, `TP_TOUCHED`. -/
def SameTruePeak (s t : State) : Prop :=
  t.tpGain = s.tpGain ∧ t.tpi = s.tpi ∧ t.tpFill = s.tpFill ∧ t.tpTouched = s.tpTouched

/-- `STATUS.FAULT`, `FAULT` and `FDATA` are the same. -/
def SameFault (s t : State) : Prop := t.fault = s.fault ∧ t.faultReg = s.faultReg ∧ t.fdata = s.fdata

/-- What waits at the ports, what went to the resampler, and whether a `TPRUN` still waits for it, is the same. -/
def SamePorts (s t : State) : Prop :=
  t.port = s.port ∧ t.replies = s.replies ∧ t.requests = s.requests ∧ t.waiting = s.waiting

/-- Every piece of state that R20 names is the same, and so are the parameters. -/
def SameBlock (s t : State) : Prop := t.cfg = s.cfg ∧ SameLoudness s t ∧ SameTruePeak s t ∧ SameFault s t

/-- Everything R20 names outside the channels is the same, and so are the parameters and the ports. -/
def SameBesidesChannels (s t : State) : Prop :=
  t.cfg = s.cfg ∧ t.wp = s.wp ∧ t.blkE = s.blkE ∧ t.blkCnt = s.blkCnt ∧ t.blockReady = s.blockReady ∧ t.ovr = s.ovr
    ∧ SameTruePeak s t ∧ SameFault s t ∧ SamePorts s t

/-- Every channel but `c` is the same, its buffer included, and there are as many. -/
def SameOtherChannels (c : Nat) (s t : State) : Prop :=
  t.chans.length = s.chans.length ∧ ∀ e, e ≠ c → t.chan e = s.chan e

/-- The four filter registers of a channel are the same. -/
def SameFilter (k l : Channel) : Prop :=
  l.prev1 = k.prev1 ∧ l.last1 = k.last1 ∧ l.prev2 = k.prev2 ∧ l.last2 = k.last2

/-- A state of an instance: the parameters are an instance (R10), there are `NCH` channels, the cursor and the fill count are
in range (R25, R33), and no frame is full between commands (R148: "`pushed` is never all ones"). -/
structure State.Shaped (s : State) : Prop where
  valid : s.cfg.valid = true
  channels : s.chans.length = s.cfg.nch
  cursor : s.wp.toNat < s.cfg.bufLen
  fill : s.tpFill.toNat ≤ s.cfg.tpCap
  frame : s.frameFull = false

/-- The storage spaces are in canonical form and hold nothing past their end (R50). -/
structure State.Stored (s : State) : Prop where
  bufs : ∀ k ∈ s.chans, k.buf.wf = true ∧ k.buf.below s.cfg.bufLen = true
  tpi : s.tpi.wf = true ∧ s.tpi.below s.cfg.tpCap = true

/-- R178 (1): `tp_gain` is no NaN and its sign bit is 0. -/
def State.PeakLegal (s : State) : Prop := isNan s.tpGain = false ∧ sign s.tpGain = false

/-- R30, R39, R241: outside the fault state the record is zero; inside it bits 63:24 are zero, the cause is `0x01` to `0x07`,
and no `TPRUN` waits, since none is executed there (R246). -/
def State.RecordLegal (s : State) : Prop :=
  if s.fault then
    s.faultReg.extractLsb' 24 40 = 0 ∧ 1 ≤ (s.faultReg.extractLsb' 0 8).toNat ∧ (s.faultReg.extractLsb' 0 8).toNat ≤ 7
      ∧ s.waiting = false
  else s.faultReg = 0 ∧ s.fdata = 0

/-- R29, R135: `OVR` only with `BLOCK_READY`; in mode CIRC the latches, `BLKCNT` and both flags keep their reset value. -/
structure State.LatchesLegal (s : State) : Prop where
  overrun : s.ovr = true → s.blockReady = true
  circ : s.cfg.mode = .circ →
    s.blockReady = false ∧ s.blkCnt = 0 ∧ s.blkE = 0 ∧ ∀ k ∈ s.chans, k.blkMs = 0

/-- R25, R148: in mode BLOCK the cursor is at `OV` or past it once a block has been counted. -/
def State.CursorLegal (s : State) : Prop :=
  s.cfg.mode = .block → s.blkCnt ≠ 0 → s.cfg.retained ≤ s.wp.toNat

/-- A pattern that is no signalling NaN. -/
def notSignalling (a : F64) : Prop := isNan a = true → isQuietNan a = true

/-- R22: no filter register holds a signalling NaN. -/
def State.FiltersQuiet (s : State) : Prop :=
  ∀ k ∈ s.chans, notSignalling k.prev1 ∧ notSignalling k.last1 ∧ notSignalling k.prev2 ∧ notSignalling k.last2

/-- The nine values that one stage computes (R100), in order. -/
def stageValues (d k : Nat) (co : Coef) (p l x : F64) : List F64 :=
  let t1 := fmul d k co.a1 p
  let t2 := fsub d (k + 1) x t1
  let t3 := fmul d (k + 2) co.a2 l
  let v := fsub d (k + 3) t2 t3
  let u1 := fmul d (k + 4) v co.b0
  let u2 := fmul d (k + 5) p co.b1
  let u3 := fadd d (k + 6) u1 u2
  let u4 := fmul d (k + 7) l co.b2
  [t1, t2, t3, v, u1, u2, u3, u4, fadd d (k + 8) u3 u4]

/-- The cascade of `x` through channel `k` meets no NaN: none of its eighteen operations produces one. -/
def numericCascade (d : Nat) (c : Config) (k : Channel) (x : F64) : Bool :=
  (stageValues d 0 c.coef1 k.prev1 k.last1 x).all (fun a => !isNan a)
    && (stageValues d 9 c.coef2 k.prev2 k.last2 (stage d 0 c.coef1 k.prev1 k.last1 x).y).all (fun a => !isNan a)

/-- The commands that touch only the loudness side, or read it. -/
def loudnessCommand : Instr → Bool
  | .nop _ _ => false
  | .frst _ _ => true
  | .fproc _ _ => true
  | .rdfs _ _ => true
  | .push _ _ => true
  | .msq _ _ => true
  | .wsum _ _ => true
  | .rdblk _ _ => true
  | .rdblke _ _ => true
  | .blkack _ _ => true
  | .crst _ _ => true
  | .mrst _ _ => true
  | .rdbuf _ _ => true
  | .rdw _ _ => true
  | .tpin _ _ => false
  | .tprun _ _ => false
  | .tprd _ _ => false
  | .tprst _ _ => false
  | .rdreg _ _ => false

/-- The commands of the true-peak side. -/
def truePeakCommand : Instr → Bool
  | .nop _ _ => false
  | .frst _ _ => false
  | .fproc _ _ => false
  | .rdfs _ _ => false
  | .push _ _ => false
  | .msq _ _ => false
  | .wsum _ _ => false
  | .rdblk _ _ => false
  | .rdblke _ _ => false
  | .blkack _ _ => false
  | .crst _ _ => false
  | .mrst _ _ => false
  | .rdbuf _ _ => false
  | .rdw _ _ => false
  | .tpin _ _ => true
  | .tprun _ _ => true
  | .tprd _ _ => true
  | .tprst _ _ => true
  | .rdreg _ _ => false

/-- R56: the commands whose loads "have no side effects". -/
def readCommand : Instr → Bool
  | .nop _ _ => true
  | .frst _ _ => false
  | .fproc _ _ => false
  | .rdfs _ _ => true
  | .push _ _ => false
  | .msq _ _ => true
  | .wsum _ _ => true
  | .rdblk _ _ => true
  | .rdblke _ _ => true
  | .blkack _ _ => false
  | .crst _ _ => false
  | .mrst _ _ => false
  | .rdbuf _ _ => true
  | .rdw _ _ => true
  | .tpin _ _ => false
  | .tprun _ _ => false
  | .tprd _ _ => true
  | .tprst _ _ => false
  | .rdreg _ _ => true

end Sys2Proof.Machine
end

