-- ==== Sys2Proof/Certificates/Slice0/Obligations.lean ====
section
/-! DEFINITION. The statements for the provers. Each docstring names the rule of spec/ the statement formalises.
Free values (NaN bits, `Config.freeReply`) stay free: no statement says what one is. -/

open Sys2Proof Sys2Proof.Machine

/-! ### Encoding -/

/-- R70, R74: the decoder reads back what the encoder writes, for every command and every value of both fields. -/
def Obligations.DecodeOfEncodeIsTheCommand : Prop :=
  ∀ i : Instr, decode (encode i) = .ok i

/-- R70, R71: no bit of a command word is dropped; each word stands for at most one command. -/
def Obligations.EncodeOfDecodeIsTheWord : Prop :=
  ∀ (w : CmdWord) (i : Instr), decode w = .ok i → encode i = w

/-- 95_test_vectors.md V1: words written out from R70 and R74. -/
def Obligations.SpecWordsDecode : Prop :=
  decode 0x00000000000000000000 = .ok (.nop 0 0) ∧
  decode 0x01020000000000000000 = .ok (.frst 2 0) ∧
  decode 0x03010000000000000003 = .ok (.rdfs 1 3) ∧
  decode 0x10013FF0000000000000 = .ok (.push 1 0x3FF0000000000000) ∧
  decode 0x18000000000000004AFF = .ok (.rdbuf 0 19199) ∧
  decode 0x20003FE0000000000000 = .ok (.tpin 0 0x3FE0000000000000) ∧
  decode 0x30130000000000000000 = .ok (.rdreg 0x13 0)

/-- R54: the serialised word, most significant byte first, reads back, and what follows it is left over. -/
def Obligations.SerialisedWordReadsBack : Prop :=
  ∀ (i : Instr) (rest : List Byte),
    decodeBytes (wordBytes (encode i) ++ rest) = .ok (i, rest) ∧
    wordBytes (encode i) = [i.opcode, i.ch, i.data.extractLsb' 56 8, i.data.extractLsb' 48 8, i.data.extractLsb' 40 8,
      i.data.extractLsb' 32 8, i.data.extractLsb' 24 8, i.data.extractLsb' 16 8, i.data.extractLsb' 8 8,
      i.data.extractLsb' 0 8]

/-! ### Steps -/

/-- R12, R13, R73: where no `TPRUN` is in progress a step takes the next command word off the port and executes the command it
decodes to. -/
def Obligations.StepRunsTheDecodedCommand : Prop :=
  ∀ (s : State) (w : CmdWord) (rest : List PortEvent) (i : Instr),
    s.cfg.valid = true → s.waiting = false → s.port = .cmd w :: rest → decode w = .ok i →
      step s = exec i { s with port := rest }

/-- R76: every opcode R74 does not list raises `ILLEGAL_OP` (cause `0x01`), whatever `CH` and `DATA` hold; the word is
recorded and nothing else of the block changes. -/
def Obligations.IllegalOpcodeFaults : Prop :=
  ∀ (s : State) (w : CmdWord) (rest : List PortEvent),
    s.cfg.valid = true → s.waiting = false → s.port = .cmd w :: rest → s.fault = false →
    ((0x04 ≤ (opField w).toNat ∧ (opField w).toNat ≤ 0x0F) ∨ (0x1A ≤ (opField w).toNat ∧ (opField w).toNat ≤ 0x1F) ∨
      (0x24 ≤ (opField w).toNat ∧ (opField w).toNat ≤ 0x2F) ∨ 0x31 ≤ (opField w).toNat) →
    ∃ t, step s = .next t ∧ t.fault = true ∧
      t.faultReg.toNat = (chField w).toNat * 2 ^ 16 + (opField w).toNat * 2 ^ 8 + 0x01 ∧ t.fdata = dataField w ∧
      t.cfg = s.cfg ∧ SameLoudness s t ∧ SameTruePeak s t ∧ t.port = rest ∧ t.replies = s.replies ∧
      t.requests = s.requests ∧ t.waiting = false ∧ Answers s t 0

/-- R255, R10 (U7): with nothing at the port the block keeps all state; parameters that are no instance have no step. -/
def Obligations.IdleAndRefusedSteps : Prop :=
  ∀ s : State,
    (s.port = [] → step s = .next s) ∧
    (∀ (e : PortEvent) (rest : List PortEvent), s.port = e :: rest → s.cfg.valid = false → step s = .refused .noInstance)

/-- R270, R39: `rst` gives every piece of the block's state its reset value, out of the fault state too, and whether it comes
between commands, while a command is executing (`d`) or while a `TPRUN` waits for the resampler (`s.waiting`): that command is
abandoned without a response. The parameters are untouched. (That `TPI` then reads as `+0.0` is the model's choice, log entry 10,
and not said here.) -/
def Obligations.RstRestoresEveryRegister : Prop :=
  ∀ (s : State) (d : Option CmdWord) (rest : List PortEvent),
    s.cfg.valid = true → s.port = .rst d :: rest →
    ∃ t, step s = .next t ∧ t.cfg = s.cfg ∧ t.chans.length = s.cfg.nch ∧
      (∀ k ∈ t.chans, k.prev1 = 0 ∧ k.last1 = 0 ∧ k.prev2 = 0 ∧ k.last2 = 0 ∧ (∀ i, k.buf.read i = 0) ∧
        k.pushed = false ∧ k.blkMs = 0) ∧
      t.wp = 0 ∧ t.blkE = 0 ∧ t.blkCnt = 0 ∧ statusWord t = 0 ∧ t.fault = false ∧ t.blockReady = false ∧ t.ovr = false ∧
      t.tpTouched = false ∧ t.faultReg = 0 ∧ t.fdata = 0 ∧ t.tpGain = 0 ∧ t.tpFill = 0 ∧
      t.waiting = false ∧ t.port = rest ∧ t.rsps = s.rsps ∧ t.replies = s.replies ∧ t.requests = s.requests

/-- R39, R272: the state an instance comes into existence in. `State.reset` has the parameters of the example instance XD
(DESIGN CHOICE, log entry 2). -/
def Obligations.ConstructedStateIsTheResetTable : Prop :=
  State.reset.cfg = Config.xd ∧
  ∀ c : Config,
    (∀ e, ((State.resetOf c).chan e).prev1 = 0 ∧ ((State.resetOf c).chan e).last1 = 0 ∧
      ((State.resetOf c).chan e).prev2 = 0 ∧ ((State.resetOf c).chan e).last2 = 0 ∧
      (∀ i, ((State.resetOf c).chan e).buf.read i = 0) ∧ ((State.resetOf c).chan e).pushed = false ∧
      ((State.resetOf c).chan e).blkMs = 0) ∧
    (State.resetOf c).chans.length = c.nch ∧
    (State.resetOf c).wp = 0 ∧ (State.resetOf c).blkE = 0 ∧ (State.resetOf c).blkCnt = 0 ∧
    statusWord (State.resetOf c) = 0 ∧ (State.resetOf c).faultReg = 0 ∧ (State.resetOf c).fdata = 0 ∧
    (State.resetOf c).tpGain = 0 ∧ (State.resetOf c).tpFill = 0 ∧ (State.resetOf c).waiting = false

/-- The reset state of every instance is legal in every sense of Safety.lean. -/
def Obligations.ResetStateIsLegal : Prop :=
  ∀ c : Config, c.valid = true →
    (State.resetOf c).Shaped ∧ (State.resetOf c).Stored ∧ (State.resetOf c).PeakLegal ∧ (State.resetOf c).RecordLegal ∧
    (State.resetOf c).LatchesLegal ∧ (State.resetOf c).CursorLegal ∧ (State.resetOf c).FiltersQuiet

/-! ### Faults -/

/-- The codes of R241. -/
def causeNumber : Cause → Nat
  | .illegalOp => 0x01
  | .reservedField => 0x02
  | .badChannel => 0x03
  | .badIndex => 0x04
  | .frameSeq => 0x05
  | .tpBufOver => 0x06
  | .tpFramePartial => 0x07

/-- R245, R241, R243: whenever a condition holds, the first in the priority order is raised: `FAULT` takes `CH`, `OP` and the
cause, `FDATA` takes `DATA`, `STATUS.FAULT` is set, the response is 0, and nothing else changes. First for the 19 commands, then for a
word that is none of them. -/
def Obligations.FaultEntryIsPrecise : Prop :=
  (∀ (i : Instr) (s : State) (c : Cause), s.fault = false → firstCause i s = some c →
    ∃ t, exec i s = .next t ∧ t.fault = true ∧
      t.faultReg.toNat = i.ch.toNat * 2 ^ 16 + i.opcode.toNat * 2 ^ 8 + causeNumber c ∧ t.fdata = i.data ∧
      t.cfg = s.cfg ∧ SameLoudness s t ∧ SameTruePeak s t ∧ SamePorts s t ∧ t.draws = s.draws ∧ Answers s t 0) ∧
  (∀ (s : State) (w : CmdWord) (rest : List PortEvent) (e : DecodeError), s.cfg.valid = true → s.waiting = false →
    s.fault = false → s.port = .cmd w :: rest → decode w = .error e →
    ∃ t, step s = .next t ∧ t.fault = true ∧
      t.faultReg.toNat = (chField w).toNat * 2 ^ 16 + (opField w).toNat * 2 ^ 8 + causeNumber .illegalOp ∧
      t.fdata = dataField w ∧ t.cfg = s.cfg ∧ SameLoudness s t ∧ SameTruePeak s t ∧ t.port = rest ∧
      t.replies = s.replies ∧ t.requests = s.requests ∧ t.waiting = false ∧ t.draws = s.draws ∧ Answers s t 0)

/-- R242, R241: a command for which no condition holds raises nothing; in particular no value of a sample raises a fault. -/
def Obligations.ProperCommandRaisesNothing : Prop :=
  ∀ (i : Instr) (s t : State), Proper i s → exec i s = .next t → SameFault s t

/-- R246: in the fault state every command word, legal or not, changes no state of the block; `ST.FAULT` stays 1 and the run
stays a failed one. The response is 0 but for an `RDREG` with a zero `DATA` field and a defined index, which reads its
register. -/
def Obligations.FaultStateIsFrozen : Prop :=
  ∀ (s : State) (w : CmdWord) (rest : List PortEvent),
    s.cfg.valid = true → s.waiting = false → s.fault = true → s.port = .cmd w :: rest →
    ∃ t, step s = .next t ∧ SameBlock s t ∧ t.port = rest ∧ t.replies = s.replies ∧ t.requests = s.requests ∧
      t.waiting = false ∧
      (statusByte t).getLsbD 0 = true ∧ t.successful = false ∧
      Answers s t (match decode w with
        | .ok (.rdreg ch data) => if data = 0 ∧ regIndexDefined ch = true then regValue s ch else 0
        | _ => 0)

/-- R244: `STATUS` bit 0 is the fault state; a step enters it only by the fault entry of R245, the record naming the word and
its first cause, and leaves it only at `rst`. -/
def Obligations.FaultStateIsEnteredAndLeft : Prop :=
  ∀ s t : State, step s = .next t →
    (statusWord t).getLsbD 0 = t.fault ∧
    (s.fault = false → t.fault = true → ∃ w rest c, s.port = .cmd w :: rest ∧
      (match decode w with
        | .ok i => firstCause i s = some c
        | .error _ => c = .illegalOp) ∧
      t.faultReg.toNat = (chField w).toNat * 2 ^ 16 + (opField w).toNat * 2 ^ 8 + causeNumber c ∧ t.fdata = dataField w) ∧
    (s.fault = true → t.fault = false → ∃ d rest, s.port = .rst d :: rest)

/-- R13, R59, R72: a command is accepted only where none is in progress, and every accepted command gets exactly one response,
in the order of acceptance, its `ST` byte being `STATUS[7:0]` as it stands after the command; the one that does not complete is
a `TPRUN` that the resampler never answers (R281). No command changes a parameter (R35). -/
def Obligations.EveryCommandAnswersOnce : Prop :=
  ∀ (s t : State) (w : CmdWord) (rest : List PortEvent), s.port = .cmd w :: rest → step s = .next t →
    s.waiting = false ∧ t.port = rest ∧ t.cfg = s.cfg ∧
    ((t.waiting = false ∧ ∃ d, Answers s t d) ∨
      (t.waiting = true ∧ t.rsps = s.rsps ∧ opField w = 0x21 ∧ ∃ later, s.replies = .silent :: later))

/-- R281, U5, U6, U7: nothing but the resampler stops a command, and only `TPRUN`. One that is never answered has sent its request
and waits, without a response; while it waits a command word finds the block stuck. An answer outside the contract is refused.
These, and parameters that are no instance, are all the ways a step can stop; `rst` is not among them. -/
def Obligations.OnlyTprunCanStop : Prop :=
  (∀ (i : Instr) (s : State), (∀ t, exec i s ≠ .next t) →
    ∃ ch data a later, i = .tprun ch data ∧ s.replies = .answer a :: later ∧
      replyConforms s.cfg (s.tpFill.toNat / s.cfg.tpNch) a = false ∧ exec i s = .refused .resamplerBreach) ∧
  (∀ (ch : BitVec 8) (data : BitVec 64) (s : State) (later : List ResamplerMove),
    Proper (.tprun ch data) s → s.replies = .silent :: later →
    exec (.tprun ch data) s = .next { s with
      requests := s.requests ++ [⟨s.tpFill.toNat / s.cfg.tpNch, (List.range s.tpFill.toNat).map s.tpi.read⟩]
      replies := later
      waiting := true }) ∧
  (∀ s : State, s.cfg.valid = true → s.waiting = true → ∀ (w : CmdWord) (rest : List PortEvent), s.port = .cmd w :: rest →
    step s = .fault .resamplerSilent) ∧
  (∀ s : State, (∀ t, step s ≠ .next t) → ∃ e rest, s.port = e :: rest ∧
    ((s.cfg.valid = false ∧ step s = .refused .noInstance) ∨
     (∃ w, e = .cmd w ∧ s.cfg.valid = true ∧ s.waiting = true ∧ step s = .fault .resamplerSilent) ∨
     (∃ w ch data a later, e = .cmd w ∧ s.cfg.valid = true ∧ s.waiting = false ∧ decode w = .ok (.tprun ch data) ∧
        s.replies = .answer a :: later ∧ step s = .refused .resamplerBreach)))

/-! ### Invariants of every step -/

/-- R25, R33, R148: the parameters stay an instance, there are `NCH` channels, `wp < N`, `tp_fill` within `TPI`, and `pushed`
is never all ones between commands. -/
def Obligations.StepKeepsShape : Prop :=
  ∀ s t : State, s.Shaped → step s = .next t → t.Shaped

/-- R50: both storage spaces keep their canonical form and hold nothing outside their index range. -/
def Obligations.StepKeepsStorage : Prop :=
  ∀ s t : State, s.Shaped → s.Stored → step s = .next t → t.Stored

/-- R178 (1), R31: `tp_gain` stays no NaN with sign bit 0. -/
def Obligations.StepKeepsPeakLegal : Prop :=
  ∀ s t : State, s.PeakLegal → step s = .next t → t.PeakLegal

/-- R178 (2): `tp_gain` never decreases but at `TPRST` (`OP` `0x23`) and `rst`. -/
def Obligations.PeakNeverDecreases : Prop :=
  ∀ s t : State, s.PeakLegal → step s = .next t →
    (∀ d rest, s.port ≠ .rst d :: rest) → (∀ w rest, s.port = .cmd w :: rest → opField w ≠ 0x23) →
    order s.tpGain ≤ order t.tpGain

/-- R30, R241, R246: the fault record is zero outside the fault state; inside it the cause is `0x01` to `0x07`, bits 63:24 are
zero, and no `TPRUN` is in progress. -/
def Obligations.StepKeepsRecordLegal : Prop :=
  ∀ s t : State, s.RecordLegal → step s = .next t → t.RecordLegal

/-- R29, R135, R27: `OVR` only with `BLOCK_READY`; in mode CIRC the latches, `BLKCNT` and both flags never change from reset. -/
def Obligations.StepKeepsLatchesLegal : Prop :=
  ∀ s t : State, s.LatchesLegal → step s = .next t → t.LatchesLegal

/-- R25, R148: in mode BLOCK `wp >= OV` once a block has been counted. -/
def Obligations.StepKeepsCursorLegal : Prop :=
  ∀ s t : State, s.Shaped → s.CursorLegal → step s = .next t → t.CursorLegal

/-- R22: a signalling NaN never arises in a filter register, whatever the samples. -/
def Obligations.StepKeepsFiltersQuiet : Prop :=
  ∀ s t : State, s.FiltersQuiet → step s = .next t → t.FiltersQuiet

/-! ### Isolation -/

/-- R171 to R175: no true-peak command changes the loudness side. -/
def Obligations.TruePeakCommandsLeaveLoudnessAlone : Prop :=
  ∀ (i : Instr) (s t : State), truePeakCommand i = true → exec i s = .next t → SameLoudness s t

/-- R111, R131, R143, R144: no loudness command changes the true-peak side, or has anything to do with the resampler. -/
def Obligations.LoudnessCommandsLeaveTruePeakAlone : Prop :=
  ∀ (i : Instr) (s t : State), loudnessCommand i = true → exec i s = .next t → SameTruePeak s t ∧ SamePorts s t

/-- R56: the loads complete and change no state. -/
def Obligations.ReadCommandsHaveNoSideEffects : Prop :=
  ∀ (i : Instr) (s : State), readCommand i = true → Proper i s →
    ∃ t, exec i s = .next t ∧ SameBlock s t ∧ SamePorts s t

/-- R149: what a loudness command does and answers is a function of the loudness side, the parameters and the command (and of
the free values it draws): the true-peak side and the ports never enter. The relation between the two states (parameters,
loudness side, `STATUS.FAULT`, free-value counter) holds of the states after, so it holds along any list of such commands. -/
def Obligations.LoudnessIsDeterminedByLoudness : Prop :=
  ∀ (i : Instr) (s s' t : State), loudnessCommand i = true →
    s'.cfg = s.cfg → SameLoudness s s' → s'.fault = s.fault → s'.draws = s.draws → exec i s = .next t →
    ∃ t' r r', exec i s' = .next t' ∧ t'.cfg = t.cfg ∧ SameLoudness t t' ∧ t'.fault = t.fault ∧ t'.draws = t.draws ∧
      t.rsps = s.rsps ++ [r] ∧ t'.rsps = s'.rsps ++ [r'] ∧ r'.extractLsb' 0 64 = r.extractLsb' 0 64

/-- R101: the cascade of a channel reads only the four registers of that channel. -/
def Obligations.FilterChannelsAreIndependent : Prop :=
  ∀ (ch : BitVec 8) (x : BitVec 64) (s s' : State), Proper (.fproc ch x) s → Proper (.fproc ch x) s' →
    s'.cfg = s.cfg → s'.draws = s.draws → ch.toNat < s.chans.length → ch.toNat < s'.chans.length →
    SameFilter (s.chan ch.toNat) (s'.chan ch.toNat) →
    ∃ t t' y, exec (.fproc ch x) s = .next t ∧ exec (.fproc ch x) s' = .next t' ∧
      SameFilter (t.chan ch.toNat) (t'.chan ch.toNat) ∧ Answers s t y ∧ Answers s' t' y

/-- R150: the `PUSH`es of two channels within a frame commute: either order leaves the same state, whether or not the second
one commits the frame or completes a block. The responses come in the order of the commands. Stated for samples whose cascades
meet no NaN, since R150 inherits R106's exception for NaN bits. -/
def Obligations.PushesOfAFrameCommute : Prop :=
  ∀ (c e : BitVec 8) (x z : BitVec 64) (s : State), s.Shaped → c ≠ e →
    Proper (.push c x) s → Proper (.push e z) s →
    numericCascade s.draws s.cfg (s.chan c.toNat) x = true → numericCascade s.draws s.cfg (s.chan e.toNat) z = true →
    ∃ t1 t2 u1 u2, exec (.push c x) s = .next t1 ∧ exec (.push e z) t1 = .next t2 ∧
      exec (.push e z) s = .next u1 ∧ exec (.push c x) u1 = .next u2 ∧ { u2 with rsps := t2.rsps } = t2

/-! ### The system commands -/

/-- R29, U14: `STATUS` is its five bits, the rest 0, and the response's `ST` byte is its low byte. -/
def Obligations.StatusIsItsFlags : Prop :=
  ∀ s : State, (statusWord s).toNat = s.fault.toNat + 2 * s.blockReady.toNat + 4 * s.ovr.toNat + 8 * s.tpTouched.toNat
      + 16 * (s.chans.any (·.pushed)).toNat ∧
    statusByte s = (statusWord s).extractLsb' 0 8

/-- R200: `NOP` is the all-zero word, responds 0 and changes nothing, in the fault state too; a field that is not zero raises
`RESERVED_FIELD` outside the fault state. -/
def Obligations.NopAnswersZero : Prop :=
  encode (.nop 0 0) = 0 ∧ ∀ s : State,
    (∃ t, exec (.nop 0 0) s = .next t ∧ SameBlock s t ∧ SamePorts s t ∧ Answers s t 0) ∧
    (∀ (ch : BitVec 8) (data : BitVec 64), s.fault = false → ch ≠ 0 ∨ data ≠ 0 →
      ∃ t, exec (.nop ch data) s = .next t ∧ t.fault = true ∧ t.faultReg.toNat = ch.toNat * 2 ^ 16 + 0x02 ∧
        t.fdata = data ∧ Answers s t 0)

/-- The index map of R202. `BitVec.ofNat 64` of a parameter that no bound of R8 keeps below 2^64 (`TP_OCAP` in an instance) is
the model's reading, not R202's: modulo 2^64 (log entry 16). -/
def registerMap (s : State) : List (Nat × BitVec 64) :=
  [(0x00, statusWord s), (0x01, s.faultReg), (0x02, s.fdata), (0x03, BitVec.ofNat 64 s.wp.toNat), (0x04, s.blkCnt),
   (0x05, BitVec.ofNat 64 (s.chans.filter (·.pushed)).length), (0x06, BitVec.ofNat 64 s.tpFill.toNat)]
  ++ [(0x10, BitVec.ofNat 64 s.cfg.nch), (0x11, BitVec.ofNat 64 s.cfg.fs),
   (0x12, if s.cfg.mode = .block then 0 else 1), (0x13, BitVec.ofNat 64 s.cfg.bufLen), (0x14, BitVec.ofNat 64 s.cfg.hop),
   (0x15, BitVec.ofNat 64 s.cfg.tpNch), (0x16, BitVec.ofNat 64 s.cfg.tpMaxbuf), (0x17, BitVec.ofNat 64 s.cfg.tpOcap)]
  ++ [(0x20, s.cfg.coef1.a1), (0x21, s.cfg.coef1.a2), (0x22, s.cfg.coef1.b0), (0x23, s.cfg.coef1.b1),
   (0x24, s.cfg.coef1.b2), (0x28, s.cfg.coef2.a1), (0x29, s.cfg.coef2.a2), (0x2A, s.cfg.coef2.b0),
   (0x2B, s.cfg.coef2.b1), (0x2C, s.cfg.coef2.b2), (0x30, s.cfg.gIn), (0x31, s.cfg.gOut)]

/-- R201, R202: `RDREG` responds the register of its index and changes nothing; the indices it accepts are exactly those of the
map. That a parameter of 2^64 or more reads as its low 64 bits is the model's (log entry 16), and no rule of the spec. -/
def Obligations.RdregReadsTheMap : Prop :=
  ∀ (ch : BitVec 8) (s : State),
    (∀ data : BitVec 64, Proper (.rdreg ch data) s → ∃ t v, exec (.rdreg ch data) s = .next t ∧ SameBlock s t ∧
      SamePorts s t ∧ Answers s t v ∧ (ch.toNat, v) ∈ registerMap s) ∧
    (s.fault = false → (∃ v, (ch.toNat, v) ∈ registerMap s) → Proper (.rdreg ch 0) s)

/-! ### The filter -/

/-- R110: `FRST` zeroes the four filter registers of the channel and touches nothing else. -/
def Obligations.FrstZeroesTheFilter : Prop :=
  ∀ (ch : BitVec 8) (data : BitVec 64) (s : State), Proper (.frst ch data) s → s.chans.length = s.cfg.nch →
    ∃ t, exec (.frst ch data) s = .next t ∧ Answers s t 0 ∧
      (t.chan ch.toNat).prev1 = 0 ∧ (t.chan ch.toNat).last1 = 0 ∧ (t.chan ch.toNat).prev2 = 0 ∧
      (t.chan ch.toNat).last2 = 0 ∧ (t.chan ch.toNat).buf = (s.chan ch.toNat).buf ∧
      (t.chan ch.toNat).pushed = (s.chan ch.toNat).pushed ∧ (t.chan ch.toNat).blkMs = (s.chan ch.toNat).blkMs ∧
      SameOtherChannels ch.toNat s t ∧ SameBesidesChannels s t

/-- R100, R101, R111: `FPROC` is the recursion of R100 through stage 1, then stage 2, each of the eighteen operations rounded;
it updates the four filter registers of the channel and nothing else. The pairs of numbers after `fmul`, `fsub`, `fadd` name the
NaN an operation may draw and nothing more. -/
def Obligations.FprocRunsTheCascade : Prop :=
  ∀ (ch : BitVec 8) (x : BitVec 64) (s : State), Proper (.fproc ch x) s → s.chans.length = s.cfg.nch →
    let k := s.chan ch.toNat
    let d := s.draws
    let c1 := s.cfg.coef1
    let c2 := s.cfg.coef2
    let v1 := fsub d 3 (fsub d 1 x (fmul d 0 c1.a1 k.prev1)) (fmul d 2 c1.a2 k.last1)
    let y1 := fadd d 8 (fadd d 6 (fmul d 4 v1 c1.b0) (fmul d 5 k.prev1 c1.b1)) (fmul d 7 k.last1 c1.b2)
    let v2 := fsub d 12 (fsub d 10 y1 (fmul d 9 c2.a1 k.prev2)) (fmul d 11 c2.a2 k.last2)
    let y2 := fadd d 17 (fadd d 15 (fmul d 13 v2 c2.b0) (fmul d 14 k.prev2 c2.b1)) (fmul d 16 k.last2 c2.b2)
    ∃ t, exec (.fproc ch x) s = .next t ∧ Answers s t y2 ∧
      t.chan ch.toNat = { k with prev1 := v1, last1 := k.prev1, prev2 := v2, last2 := k.prev2 } ∧
      SameOtherChannels ch.toNat s t ∧ SameBesidesChannels s t

/-- R106: a NaN sample, or a NaN left in stage 1 by an earlier one, makes both stages' `prev` and the response NaN, and shifts
what stood in `prev` into `last`, so a NaN in `prev` is in `last` after. -/
def Obligations.NanPoisonsTheChannel : Prop :=
  ∀ (ch : BitVec 8) (x : BitVec 64) (s : State), Proper (.fproc ch x) s → s.chans.length = s.cfg.nch →
    (isNan x = true ∨ isNan (s.chan ch.toNat).prev1 = true ∨ isNan (s.chan ch.toNat).last1 = true) →
    ∃ t y, exec (.fproc ch x) s = .next t ∧ Answers s t y ∧ isNan y = true ∧ isNan (t.chan ch.toNat).prev1 = true ∧
      isNan (t.chan ch.toNat).prev2 = true ∧ (t.chan ch.toNat).last1 = (s.chan ch.toNat).prev1 ∧
      (t.chan ch.toNat).last2 = (s.chan ch.toNat).prev2

/-- R112, R21: the four selectors of `RDFS`. -/
def Obligations.RdfsReadsTheSelectedRegister : Prop :=
  ∀ (ch : BitVec 8) (sel : BitVec 64) (s : State), Proper (.rdfs ch sel) s →
    ∃ t, exec (.rdfs ch sel) s = .next t ∧ SameBlock s t ∧ SamePorts s t ∧
      Answers s t (if sel = 0 then (s.chan ch.toNat).prev1 else if sel = 1 then (s.chan ch.toNat).last1
        else if sel = 2 then (s.chan ch.toNat).prev2 else (s.chan ch.toNat).last2)

/-! ### The accumulator -/

/-- The filtered sample that `PUSH ch, x` stores in `s` (R131). -/
def filtered (s : State) (ch : BitVec 8) (x : BitVec 64) : F64 := (cascade s.draws s.cfg (s.chan ch.toNat) x).2

/-- In `t` channel `ch` has run `x` through its filter and holds the result at the cursor of `s`, its other elements as
before; the filters and buffers of the other channels are the same (R131). -/
def StoredSample (s t : State) (ch : BitVec 8) (x : BitVec 64) : Prop :=
  SameFilter (cascade s.draws s.cfg (s.chan ch.toNat) x).1 (t.chan ch.toNat) ∧
  (∀ i, (t.chan ch.toNat).buf.read i = if i = s.wp.toNat then filtered s ch x else (s.chan ch.toNat).buf.read i) ∧
  (∀ e, e ≠ ch.toNat → SameFilter (s.chan e) (t.chan e) ∧ (t.chan e).buf = (s.chan e).buf)

/-- R131: `PUSH` while another channel still lacks its sample: the sample is filtered and stored at `wp`, the channel is
marked, and nothing else changes. -/
def Obligations.PushWithinAFrame : Prop :=
  ∀ (ch : BitVec 8) (x : BitVec 64) (s : State), s.Shaped → s.Stored → Proper (.push ch x) s →
    (∃ e, e < s.cfg.nch ∧ e ≠ ch.toNat ∧ (s.chan e).pushed = false) →
    ∃ t, exec (.push ch x) s = .next t ∧ Answers s t (filtered s ch x) ∧ StoredSample s t ch x ∧
      (t.chan ch.toNat).pushed = true ∧ (t.chan ch.toNat).blkMs = (s.chan ch.toNat).blkMs ∧
      SameOtherChannels ch.toNat s t ∧ SameBesidesChannels s t

/-- R132: the `PUSH` that brings the last missing sample commits the frame: `pushed` is cleared and the cursor advances by
one; short of `N` nothing else happens. -/
def Obligations.PushCommitsTheFrame : Prop :=
  ∀ (ch : BitVec 8) (x : BitVec 64) (s : State), s.Shaped → s.Stored → Proper (.push ch x) s →
    (∀ e, e < s.cfg.nch → e ≠ ch.toNat → (s.chan e).pushed = true) → s.wp.toNat + 1 < s.cfg.bufLen →
    ∃ t, exec (.push ch x) s = .next t ∧ Answers s t (filtered s ch x) ∧ StoredSample s t ch x ∧
      (∀ e, (t.chan e).pushed = false ∧ (t.chan e).blkMs = (s.chan e).blkMs) ∧ t.wp.toNat = s.wp.toNat + 1 ∧
      t.blkE = s.blkE ∧ t.blkCnt = s.blkCnt ∧ t.blockReady = s.blockReady ∧ t.ovr = s.ovr ∧ t.cfg = s.cfg ∧
      SameTruePeak s t ∧ SameFault s t ∧ SamePorts s t

/-- R135: in mode CIRC the cursor wraps to 0 at `N` and nothing else happens. -/
def Obligations.PushWrapsTheCursorInCirc : Prop :=
  ∀ (ch : BitVec 8) (x : BitVec 64) (s : State), s.Shaped → s.Stored → Proper (.push ch x) s → s.cfg.mode = .circ →
    (∀ e, e < s.cfg.nch → e ≠ ch.toNat → (s.chan e).pushed = true) → s.wp.toNat + 1 = s.cfg.bufLen →
    ∃ t, exec (.push ch x) s = .next t ∧ Answers s t (filtered s ch x) ∧ StoredSample s t ch x ∧
      (∀ e, (t.chan e).pushed = false ∧ (t.chan e).blkMs = (s.chan e).blkMs) ∧ t.wp = 0 ∧
      t.blkE = s.blkE ∧ t.blkCnt = s.blkCnt ∧ t.blockReady = s.blockReady ∧ t.ovr = s.ovr ∧ t.cfg = s.cfg ∧
      SameTruePeak s t ∧ SameFault s t ∧ SamePorts s t

/-- R133, R134: in mode BLOCK the `PUSH` that fills the buffers completes a block. The means over the full buffers and their
weighted sum are latched, an unacknowledged block sets `OVR`, `BLKCNT` counts modulo 2^64, every buffer moves left by the hop
with its last `H` elements left as they were, and the cursor resumes at `N - H`. `full` is the state just before, with the
sample stored. -/
def Obligations.PushCompletesTheBlock : Prop :=
  ∀ (ch : BitVec 8) (x : BitVec 64) (s : State), s.Shaped → s.Stored → Proper (.push ch x) s → s.cfg.mode = .block →
    (∀ e, e < s.cfg.nch → e ≠ ch.toNat → (s.chan e).pushed = true) → s.wp.toNat + 1 = s.cfg.bufLen →
    ∃ t full, exec (.push ch x) s = .next t ∧ Answers s t (filtered s ch x) ∧ StoredSample s full ch x ∧
      (∀ e, e < s.cfg.nch → (t.chan e).blkMs =
        meanSquare s.draws (meanSite s.cfg.bufLen e) s.cfg.bufLen (full.chan e).buf) ∧
      t.blkE = (List.range s.cfg.nch).foldl (fun acc e => fadd s.draws (meanSite s.cfg.bufLen s.cfg.nch + 2 * e + 1) acc
        (fmul s.draws (meanSite s.cfg.bufLen s.cfg.nch + 2 * e) (s.cfg.w.getD e 0) (t.chan e).blkMs)) 0 ∧
      t.blockReady = true ∧ t.ovr = (s.ovr || s.blockReady) ∧ t.blkCnt = s.blkCnt + 1 ∧
      (∀ e, SameFilter (full.chan e) (t.chan e) ∧ (t.chan e).pushed = false ∧
        ∀ i, (t.chan e).buf.read i = if i < s.cfg.bufLen - s.cfg.hop then (full.chan e).buf.read (i + s.cfg.hop)
          else (full.chan e).buf.read i) ∧
      t.wp.toNat = s.cfg.bufLen - s.cfg.hop ∧ t.chans.length = s.chans.length ∧ t.cfg = s.cfg ∧
      SameTruePeak s t ∧ SameFault s t ∧ SamePorts s t

/-- R134: the shift by `h > 0` of `n` elements reads every element before it is overwritten. -/
def Obligations.ShiftMovesLeftByTheHop : Prop :=
  ∀ (buf : Mem) (h n i : Nat), buf.wf = true → 0 < h →
    (shiftBuf h n 0 buf).read i = if i < n then buf.read (i + h) else buf.read i

/-- R136, R138: `MSQ` responds the mean square over all `N` elements, index ascending from `+0.0`, each square and each
addition rounded, then one division by `N`; nothing changes. -/
def Obligations.MsqAnswersTheMeanSquare : Prop :=
  ∀ (ch : BitVec 8) (data : BitVec 64) (s : State), Proper (.msq ch data) s →
    ∃ t base, exec (.msq ch data) s = .next t ∧ SameBlock s t ∧ SamePorts s t ∧
      Answers s t (fdiv s.draws (base + 2 * s.cfg.bufLen)
        ((List.range s.cfg.bufLen).foldl (fun acc i => fadd s.draws (base + 2 * i + 1) acc
          (fmul s.draws (base + 2 * i) ((s.chan ch.toNat).buf.read i) ((s.chan ch.toNat).buf.read i))) 0)
        (u2f s.cfg.bufLen))

/-- R136: the mean square is a NaN or has sign bit 0. -/
def Obligations.MeanSquareIsNotNegative : Prop :=
  ∀ (d base n : Nat) (buf : Mem), isNan (meanSquare d base n buf) = true ∨ sign (meanSquare d base n buf) = false

/-- R136, source property S7: where every element is a zero, of either sign, the mean square is `+0.0`. -/
def Obligations.SilenceHasZeroEnergy : Prop :=
  ∀ (d base n : Nat) (buf : Mem), 0 < n → n < 2 ^ 32 → (∀ i, i < n → isZero (buf.read i) = true) →
    meanSquare d base n buf = 0

/-- R137, R139: `WSUM` responds the weighted sum of the channels' mean squares, channel ascending from `+0.0`, each product
and each addition rounded; nothing changes. -/
def Obligations.WsumAnswersTheWeightedSum : Prop :=
  ∀ (ch : BitVec 8) (data : BitVec 64) (s : State), s.Shaped → Proper (.wsum ch data) s →
    ∃ t base, exec (.wsum ch data) s = .next t ∧ SameBlock s t ∧ SamePorts s t ∧
      Answers s t ((List.range s.cfg.nch).foldl (fun acc e => fadd s.draws (base + 2 * e + 1) acc
        (fmul s.draws (base + 2 * e) (s.cfg.w.getD e 0)
          (meanSquare s.draws (meanSite s.cfg.bufLen e) s.cfg.bufLen (s.chan e).buf))) 0)

/-- R137: with a weight of 1.0 the product is exact. -/
def Obligations.UnityWeightIsExact : Prop :=
  ∀ (d k : Nat) (m : F64), isNan m = false → fmul d k 0x3FF0000000000000 m = m

/-- R140, R141, R145, R146, R174: the read-outs respond what is stored and change nothing. -/
def Obligations.ReadOutsAnswerWhatIsStored : Prop :=
  ∀ (ch : BitVec 8) (data : BitVec 64) (s : State),
    (Proper (.rdblk ch data) s → ∃ t, exec (.rdblk ch data) s = .next t ∧ SameBlock s t ∧ SamePorts s t ∧
      Answers s t (s.chan ch.toNat).blkMs) ∧
    (Proper (.rdblke ch data) s → ∃ t, exec (.rdblke ch data) s = .next t ∧ SameBlock s t ∧ SamePorts s t ∧
      Answers s t s.blkE) ∧
    (Proper (.rdbuf ch data) s → ∃ t, exec (.rdbuf ch data) s = .next t ∧ SameBlock s t ∧ SamePorts s t ∧
      Answers s t ((s.chan ch.toNat).buf.read data.toNat)) ∧
    (Proper (.rdw ch data) s → ∃ t, exec (.rdw ch data) s = .next t ∧ SameBlock s t ∧ SamePorts s t ∧
      Answers s t (s.cfg.w.getD ch.toNat 0)) ∧
    (Proper (.tprd ch data) s → ∃ t, exec (.tprd ch data) s = .next t ∧ SameBlock s t ∧ SamePorts s t ∧
      Answers s t s.tpGain)

/-- R142: `BLKACK` clears `BLOCK_READY` and `OVR`; the latches and `BLKCNT` stay. -/
def Obligations.BlkackClearsItsFlags : Prop :=
  ∀ (ch : BitVec 8) (data : BitVec 64) (s : State), Proper (.blkack ch data) s →
    ∃ t, exec (.blkack ch data) s = .next t ∧ Answers s t 0 ∧ t.blockReady = false ∧ t.ovr = false ∧
      t.chans = s.chans ∧ t.wp = s.wp ∧ t.blkE = s.blkE ∧ t.blkCnt = s.blkCnt ∧ t.cfg = s.cfg ∧
      SameTruePeak s t ∧ SameFault s t ∧ SamePorts s t

/-- R143: `CRST` zeroes the channel's filter and every element of its buffer; `pushed`, the latch and everything else stay. -/
def Obligations.CrstZeroesTheChannel : Prop :=
  ∀ (ch : BitVec 8) (data : BitVec 64) (s : State), Proper (.crst ch data) s → s.chans.length = s.cfg.nch →
    ∃ t, exec (.crst ch data) s = .next t ∧ Answers s t 0 ∧
      (t.chan ch.toNat).prev1 = 0 ∧ (t.chan ch.toNat).last1 = 0 ∧ (t.chan ch.toNat).prev2 = 0 ∧
      (t.chan ch.toNat).last2 = 0 ∧ (∀ i, (t.chan ch.toNat).buf.read i = 0) ∧
      (t.chan ch.toNat).pushed = (s.chan ch.toNat).pushed ∧ (t.chan ch.toNat).blkMs = (s.chan ch.toNat).blkMs ∧
      SameOtherChannels ch.toNat s t ∧ SameBesidesChannels s t

/-- R144, R149: after `MRST` the loudness side equals the reset state; the true-peak side and the fault record stay. -/
def Obligations.MrstRestoresTheLoudnessSide : Prop :=
  ∀ (ch : BitVec 8) (data : BitVec 64) (s : State), Proper (.mrst ch data) s → s.chans.length = s.cfg.nch →
    ∃ t, exec (.mrst ch data) s = .next t ∧ Answers s t 0 ∧ SameLoudness (State.resetOf s.cfg) t ∧ t.cfg = s.cfg ∧
      SameTruePeak s t ∧ SameFault s t ∧ SamePorts s t

/-! ### The true-peak side -/

/-- R171: `TPIN` scales the sample by `G_IN`, stores it at `tp_fill`, counts it and responds it; no other element of `TPI` and
nothing else changes. -/
def Obligations.TpinAppendsTheScaledSample : Prop :=
  ∀ (ch : BitVec 8) (x : BitVec 64) (s : State), s.Shaped → s.Stored → Proper (.tpin ch x) s →
    ∃ t v, v = fmul s.draws 0 x s.cfg.gIn ∧ exec (.tpin ch x) s = .next t ∧ Answers s t v ∧
      t.tpFill.toNat = s.tpFill.toNat + 1 ∧
      (∀ j, t.tpi.read j = if j = s.tpFill.toNat then v else s.tpi.read j) ∧
      t.tpGain = s.tpGain ∧ t.tpTouched = s.tpTouched ∧ t.cfg = s.cfg ∧ SameLoudness s t ∧ SameFault s t ∧ SamePorts s t

/-- R172, R173, R176: `TPRUN` with an answer that keeps the contract: the request carries `F` and `TPI[0 .. tp_fill-1]`; the
answer is scanned in order; `tp_fill` is 0 and `TP_TOUCHED` set after; the elements of `TPI` stay (R52); `used` is not used. -/
def Obligations.TprunScansTheAnswer : Prop :=
  ∀ (ch : BitVec 8) (data : BitVec 64) (s : State) (r : Reply) (rest : List ResamplerMove),
    Proper (.tprun ch data) s → s.replies = .answer r :: rest →
    r.used ≤ s.tpFill.toNat / s.cfg.tpNch → r.gen ≤ s.cfg.tpOcap → r.out.length = r.gen * s.cfg.tpNch →
    ∃ t, exec (.tprun ch data) s = .next t ∧ Answers s t t.tpGain ∧
      t.tpGain = r.out.zipIdx.foldl (fun gain p =>
        if fgt (fabs (fmul s.draws p.2 p.1 s.cfg.gOut)) gain then fabs (fmul s.draws p.2 p.1 s.cfg.gOut) else gain)
        s.tpGain ∧
      t.requests = s.requests ++ [⟨s.tpFill.toNat / s.cfg.tpNch, (List.range s.tpFill.toNat).map s.tpi.read⟩] ∧
      t.replies = rest ∧ t.waiting = s.waiting ∧ t.tpFill = 0 ∧ t.tpTouched = true ∧ t.tpi = s.tpi ∧ t.cfg = s.cfg ∧
      t.port = s.port ∧
      SameLoudness s t ∧ SameFault s t

/-- R178 (3): the maximum after a scan is the old one or one of the products, and at least as large as the old one and as every
product that is no NaN. -/
def Obligations.PeakIsTheMaximum : Prop :=
  ∀ (d : Nat) (gOut gain : F64) (out : List F64), isNan gain = false →
    (peakScan d gOut 0 gain out = gain ∨
      ∃ j x, out[j]? = some x ∧ peakScan d gOut 0 gain out = fabs (fmul d j x gOut)) ∧
    order gain ≤ order (peakScan d gOut 0 gain out) ∧
    ∀ j x, out[j]? = some x → isNan (fabs (fmul d j x gOut)) = false →
      order (fabs (fmul d j x gOut)) ≤ order (peakScan d gOut 0 gain out)

/-- R177, R281: where the environment holds no answer, `TPRUN` completes with some answer that keeps the contract. -/
def Obligations.TprunCompletesWithAFreeAnswer : Prop :=
  ∀ (ch : BitVec 8) (data : BitVec 64) (s : State), s.cfg.valid = true → Proper (.tprun ch data) s → s.replies = [] →
    ∃ (t : State) (r : Reply), exec (.tprun ch data) s = .next t ∧
      r.used ≤ s.tpFill.toNat / s.cfg.tpNch ∧ r.gen ≤ s.cfg.tpOcap ∧ r.out.length = r.gen * s.cfg.tpNch ∧
      t.tpGain = peakScan s.draws s.cfg.gOut 0 s.tpGain r.out ∧ Answers s t t.tpGain ∧ t.tpFill = 0 ∧
      t.tpTouched = true ∧ t.tpi = s.tpi ∧ t.cfg = s.cfg ∧ SameLoudness s t ∧ SameFault s t ∧ t.port = s.port ∧
      t.replies = [] ∧ t.waiting = s.waiting ∧
      t.requests = s.requests ++ [⟨s.tpFill.toNat / s.cfg.tpNch, (List.range s.tpFill.toNat).map s.tpi.read⟩]

/-- R175: `TPRST` clears the running peak, the fill count and `TP_TOUCHED`; the loudness side and the resampler's channel stay. -/
def Obligations.TprstClearsThePeak : Prop :=
  ∀ (ch : BitVec 8) (data : BitVec 64) (s : State), Proper (.tprst ch data) s →
    ∃ t, exec (.tprst ch data) s = .next t ∧ Answers s t 0 ∧ t.tpGain = 0 ∧ t.tpFill = 0 ∧ t.tpTouched = false ∧
      t.tpi = s.tpi ∧ t.cfg = s.cfg ∧ SameLoudness s t ∧ SameFault s t ∧ SamePorts s t

/-! ### Arithmetic. `exact a` is the value of a finite pattern in units of `2^-1074`; `unitScale` is how many units 1.0 has. -/

/-- R105, R15: a finite result of `fadd`, `fsub`, `fmul`, `fdiv` on finite operands is a binary64 value nearest the exact
result, and where another one is as near, the fraction of the result is even. -/
def Obligations.ResultsAreRoundedToNearestEven : Prop :=
  ∀ (d k : Nat) (a b : F64), isFinite a = true → isFinite b = true →
    (isFinite (fadd d k a b) = true → ∀ z, isFinite z = true →
      |exact a + exact b - exact (fadd d k a b)| ≤ |exact a + exact b - exact z| ∧
      (|exact a + exact b - exact (fadd d k a b)| = |exact a + exact b - exact z| →
        exact z = exact (fadd d k a b) ∨ (fadd d k a b).getLsbD 0 = false)) ∧
    (isFinite (fsub d k a b) = true → ∀ z, isFinite z = true →
      |exact a - exact b - exact (fsub d k a b)| ≤ |exact a - exact b - exact z| ∧
      (|exact a - exact b - exact (fsub d k a b)| = |exact a - exact b - exact z| →
        exact z = exact (fsub d k a b) ∨ (fsub d k a b).getLsbD 0 = false)) ∧
    (isFinite (fmul d k a b) = true → ∀ z, isFinite z = true →
      |exact a * exact b - exact (fmul d k a b) * unitScale| ≤ |exact a * exact b - exact z * unitScale| ∧
      (|exact a * exact b - exact (fmul d k a b) * unitScale| = |exact a * exact b - exact z * unitScale| →
        exact z = exact (fmul d k a b) ∨ (fmul d k a b).getLsbD 0 = false)) ∧
    (isZero b = false → isFinite (fdiv d k a b) = true → ∀ z, isFinite z = true →
      |exact a * unitScale - exact (fdiv d k a b) * exact b| ≤ |exact a * unitScale - exact z * exact b| ∧
      (|exact a * unitScale - exact (fdiv d k a b) * exact b| = |exact a * unitScale - exact z * exact b| →
        exact z = exact (fdiv d k a b) ∨ (fdiv d k a b).getLsbD 0 = false))

/-- R107: a sum or product of finite values is infinite exactly where its exact magnitude is at least the largest finite value
and half a unit in its last place (`(2^54 - 1) * 2^2044` units), and then has the sign of the exact result. -/
def Obligations.OverflowGivesInfinity : Prop :=
  ∀ (d k : Nat) (a b : F64), isFinite a = true → isFinite b = true →
    ((isInf (fadd d k a b) = true ↔ (2 ^ 54 - 1) * 2 ^ 2044 ≤ |exact a + exact b|) ∧
      (isInf (fadd d k a b) = true → (sign (fadd d k a b) = true ↔ exact a + exact b < 0))) ∧
    ((isInf (fmul d k a b) = true ↔ (2 ^ 54 - 1) * 2 ^ 2044 * unitScale ≤ |exact a * exact b|) ∧
      (isInf (fmul d k a b) = true → (sign (fmul d k a b) = true ↔ exact a * exact b < 0)))

/-- R106: a NaN operand, or an invalid operation, gives a quiet NaN (of unspecified sign and payload). -/
def Obligations.InvalidOperationsGiveAQuietNan : Prop :=
  ∀ (d k : Nat) (a b : F64),
    (isNan a = true ∨ isNan b = true → isQuietNan (fadd d k a b) = true ∧ isQuietNan (fsub d k a b) = true ∧
      isQuietNan (fmul d k a b) = true ∧ isQuietNan (fdiv d k a b) = true) ∧
    (isInf a = true → isInf b = true → sign a ≠ sign b → isQuietNan (fadd d k a b) = true) ∧
    (isInf a = true → isInf b = true → sign a = sign b → isQuietNan (fsub d k a b) = true) ∧
    (isZero a = true → isInf b = true → isQuietNan (fmul d k a b) = true ∧ isQuietNan (fmul d k b a) = true) ∧
    (isZero a = true → isZero b = true → isQuietNan (fdiv d k a b) = true) ∧
    (isInf a = true → isInf b = true → isQuietNan (fdiv d k a b) = true)

/-! ### The source's entry points -/

/-- R81, R82: with `flat[f*NCH + c] = p[c][f]` the interleaved and the deinterleaved entry point are the same command list. -/
def Obligations.EntryPointsAreTheSameCommands : Prop :=
  ∀ (nch frames : Nat) (p : List (List F64)) (flat : List F64),
    0 < nch → p.length = nch → (∀ ch ∈ p, ch.length = frames) → flat.length = frames * nch →
    (∀ f c, f < frames → c < nch → flat.getD (f * nch + c) 0 = (p.getD c []).getD f 0) →
    proci nch flat = procd frames p
end

