-- ==== Sys2Proof/Laws/State.lean ====
section
/-! SUPPORT. What the small updates of the state do to each field, so that no later proof unfolds a record update. -/

namespace Sys2Proof.Machine

variable (s : State) (d : BitVec 64) (c : Nat) (f : Channel → Channel)

@[simp] theorem State.respond_cfg : (s.respond d).cfg = s.cfg := rfl
@[simp] theorem State.respond_chans : (s.respond d).chans = s.chans := rfl
@[simp] theorem State.respond_wp : (s.respond d).wp = s.wp := rfl
@[simp] theorem State.respond_blkE : (s.respond d).blkE = s.blkE := rfl
@[simp] theorem State.respond_blkCnt : (s.respond d).blkCnt = s.blkCnt := rfl
@[simp] theorem State.respond_fault : (s.respond d).fault = s.fault := rfl
@[simp] theorem State.respond_blockReady : (s.respond d).blockReady = s.blockReady := rfl
@[simp] theorem State.respond_ovr : (s.respond d).ovr = s.ovr := rfl
@[simp] theorem State.respond_tpTouched : (s.respond d).tpTouched = s.tpTouched := rfl
@[simp] theorem State.respond_faultReg : (s.respond d).faultReg = s.faultReg := rfl
@[simp] theorem State.respond_fdata : (s.respond d).fdata = s.fdata := rfl
@[simp] theorem State.respond_tpGain : (s.respond d).tpGain = s.tpGain := rfl
@[simp] theorem State.respond_tpi : (s.respond d).tpi = s.tpi := rfl
@[simp] theorem State.respond_tpFill : (s.respond d).tpFill = s.tpFill := rfl
@[simp] theorem State.respond_port : (s.respond d).port = s.port := rfl
@[simp] theorem State.respond_rsps : (s.respond d).rsps = s.rsps ++ [responseWord s d] := rfl
@[simp] theorem State.respond_replies : (s.respond d).replies = s.replies := rfl
@[simp] theorem State.respond_requests : (s.respond d).requests = s.requests := rfl
@[simp] theorem State.respond_waiting : (s.respond d).waiting = s.waiting := rfl
@[simp] theorem State.respond_draws : (s.respond d).draws = s.draws := rfl

@[simp] theorem State.drawn_cfg : s.drawn.cfg = s.cfg := rfl
@[simp] theorem State.drawn_chans : s.drawn.chans = s.chans := rfl
@[simp] theorem State.drawn_wp : s.drawn.wp = s.wp := rfl
@[simp] theorem State.drawn_blkE : s.drawn.blkE = s.blkE := rfl
@[simp] theorem State.drawn_blkCnt : s.drawn.blkCnt = s.blkCnt := rfl
@[simp] theorem State.drawn_fault : s.drawn.fault = s.fault := rfl
@[simp] theorem State.drawn_blockReady : s.drawn.blockReady = s.blockReady := rfl
@[simp] theorem State.drawn_ovr : s.drawn.ovr = s.ovr := rfl
@[simp] theorem State.drawn_tpTouched : s.drawn.tpTouched = s.tpTouched := rfl
@[simp] theorem State.drawn_faultReg : s.drawn.faultReg = s.faultReg := rfl
@[simp] theorem State.drawn_fdata : s.drawn.fdata = s.fdata := rfl
@[simp] theorem State.drawn_tpGain : s.drawn.tpGain = s.tpGain := rfl
@[simp] theorem State.drawn_tpi : s.drawn.tpi = s.tpi := rfl
@[simp] theorem State.drawn_tpFill : s.drawn.tpFill = s.tpFill := rfl
@[simp] theorem State.drawn_port : s.drawn.port = s.port := rfl
@[simp] theorem State.drawn_rsps : s.drawn.rsps = s.rsps := rfl
@[simp] theorem State.drawn_replies : s.drawn.replies = s.replies := rfl
@[simp] theorem State.drawn_requests : s.drawn.requests = s.requests := rfl
@[simp] theorem State.drawn_waiting : s.drawn.waiting = s.waiting := rfl
@[simp] theorem State.drawn_draws : s.drawn.draws = s.draws + 1 := rfl

@[simp] theorem State.updChan_cfg : (s.updChan c f).cfg = s.cfg := rfl
@[simp] theorem State.updChan_chans : (s.updChan c f).chans = s.chans.modify c f := rfl
@[simp] theorem State.updChan_wp : (s.updChan c f).wp = s.wp := rfl
@[simp] theorem State.updChan_blkE : (s.updChan c f).blkE = s.blkE := rfl
@[simp] theorem State.updChan_blkCnt : (s.updChan c f).blkCnt = s.blkCnt := rfl
@[simp] theorem State.updChan_fault : (s.updChan c f).fault = s.fault := rfl
@[simp] theorem State.updChan_blockReady : (s.updChan c f).blockReady = s.blockReady := rfl
@[simp] theorem State.updChan_ovr : (s.updChan c f).ovr = s.ovr := rfl
@[simp] theorem State.updChan_tpTouched : (s.updChan c f).tpTouched = s.tpTouched := rfl
@[simp] theorem State.updChan_faultReg : (s.updChan c f).faultReg = s.faultReg := rfl
@[simp] theorem State.updChan_fdata : (s.updChan c f).fdata = s.fdata := rfl
@[simp] theorem State.updChan_tpGain : (s.updChan c f).tpGain = s.tpGain := rfl
@[simp] theorem State.updChan_tpi : (s.updChan c f).tpi = s.tpi := rfl
@[simp] theorem State.updChan_tpFill : (s.updChan c f).tpFill = s.tpFill := rfl
@[simp] theorem State.updChan_port : (s.updChan c f).port = s.port := rfl
@[simp] theorem State.updChan_rsps : (s.updChan c f).rsps = s.rsps := rfl
@[simp] theorem State.updChan_replies : (s.updChan c f).replies = s.replies := rfl
@[simp] theorem State.updChan_requests : (s.updChan c f).requests = s.requests := rfl
@[simp] theorem State.updChan_waiting : (s.updChan c f).waiting = s.waiting := rfl
@[simp] theorem State.updChan_draws : (s.updChan c f).draws = s.draws := rfl

@[simp] theorem State.await_waiting (l : List ResamplerMove) : (s.await l).waiting = true := rfl
@[simp] theorem State.await_replies (l : List ResamplerMove) : (s.await l).replies = l := rfl
@[simp] theorem State.await_requests (l : List ResamplerMove) : (s.await l).requests = s.requests ++ [s.request] := rfl

/-- `ST` does not depend on the response list. -/
@[simp] theorem statusByte_respond : statusByte (s.respond d) = statusByte s := rfl

@[simp] theorem statusByte_drawn : statusByte s.drawn = statusByte s := rfl

@[simp] theorem State.chan_respond : (s.respond d).chan c = s.chan c := rfl

@[simp] theorem State.chan_drawn : s.drawn.chan c = s.chan c := rfl

/-- Responding appends the one word that `Answers` asks for. -/
theorem State.respond_answers (t : State) (h : t.rsps = s.rsps) : Answers s (t.respond d) d := by
  simp [Answers, responseWord, h]

theorem State.chan_of_lt (h : c < s.chans.length) : s.chan c = s.chans[c] := by
  simp [State.chan, List.getD, List.getElem?_eq_getElem h]

theorem State.chan_of_le (h : s.chans.length ≤ c) : s.chan c = Channel.reset := by
  simp [State.chan, List.getD, List.getElem?_eq_none_iff.mpr h]

/-- A channel of the list is one of the list's channels. -/
theorem State.chan_mem (h : c < s.chans.length) : s.chan c ∈ s.chans := by
  rw [s.chan_of_lt c h]
  exact List.getElem_mem h

theorem State.exists_chan_of_mem {k : Channel} (h : k ∈ s.chans) : ∃ e, e < s.chans.length ∧ s.chan e = k := by
  obtain ⟨e, he, rfl⟩ := List.mem_iff_getElem.mp h
  exact ⟨e, he, s.chan_of_lt e he⟩

/-- Updating a channel the instance has. -/
theorem State.chan_updChan_same (h : c < s.chans.length) : (s.updChan c f).chan c = f (s.chan c) := by
  rw [State.chan_of_lt _ _ (by simpa using h), s.chan_of_lt c h]
  simp

/-- Updating one channel leaves the others. -/
theorem State.chan_updChan_other {e : Nat} (h : e ≠ c) : (s.updChan c f).chan e = s.chan e := by
  simp [State.chan, List.getD, Ne.symm h]

theorem State.updChan_sameOther : SameOtherChannels c s (s.updChan c f) :=
  ⟨by simp, fun _ h => s.chan_updChan_other c f h⟩

theorem SameOtherChannels.respond_drawn {t : State} (h : SameOtherChannels c s t) :
    SameOtherChannels c s (t.drawn.respond d) := h

/-- A channel after a map over the channels that fixes the reset channel where it is past the end. -/
theorem chan_map {s t : State} {g : Channel → Channel} (h : t.chans = s.chans.map g) {e : Nat} (he : e < s.chans.length) :
    t.chan e = g (s.chan e) := by
  rw [State.chan_of_lt _ _ (by simpa [h] using he), State.chan_of_lt _ _ he]
  simp [h]

theorem chan_mapIdx {s t : State} {g : Nat → Channel → Channel} (h : t.chans = s.chans.mapIdx g) {e : Nat}
    (he : e < s.chans.length) : t.chan e = g e (s.chan e) := by
  rw [State.chan_of_lt _ _ (by simpa [h] using he), State.chan_of_lt _ _ he]
  simp [h]

end Sys2Proof.Machine
end

