-- ==== Sys2Proof/Laws/Exec.lean ====
section
/-! SUPPORT. Each shared operation said once: what `raise` and `command` can answer, and one inversion of `exec`, from which the
invariants follow without unfolding a meaning again. -/

namespace Sys2Proof.Machine

/-! ### Responding and faulting -/

theorem State.raise_of_fault {s : State} (h : s.fault = true) (c : Cause) (op ch : BitVec 8) (data : BitVec 64) :
    s.raise c op ch data = s.respond 0 := by
  simp [State.raise, h]

theorem State.raise_of_running {s : State} (h : s.fault = false) (c : Cause) (op ch : BitVec 8) (data : BitVec 64) :
    s.raise c op ch data = { s with fault := true, faultReg := faultRecord c op ch, fdata := data }.respond 0 := by
  simp [State.raise, h]

/-- The record as a number: its fields do not overlap (R204 (7)). -/
theorem faultRecord_toNat (c : Cause) (op ch : BitVec 8) :
    (faultRecord c op ch).toNat = ch.toNat * 2 ^ 16 + op.toNat * 2 ^ 8 + c.code.toNat := by
  have h1 := ch.isLt
  have h2 := op.isLt
  have h3 := c.code.isLt
  rw [faultRecord, BitVec.toNat_setWidth, BitVec.toNat_append, BitVec.toNat_append,
    ← Nat.shiftLeft_add_eq_or_of_lt h3, ← Nat.shiftLeft_add_eq_or_of_lt h2]
  simp only [Nat.shiftLeft_eq]
  omega

/-- The three cases of the checks every command starts with (R73). -/
theorem command_cases (i : Instr) (cu : ChUse) (du : DataUse) (body : State → Result) (s : State) :
    (s.fault = true ∧ runsInFault i.opcode = false ∧ command i cu du body s = .next (s.respond 0)) ∨
    ((s.fault = false ∨ runsInFault i.opcode = true) ∧
      ((∃ c, operandCause cu du s.cfg.nch i.ch i.data = some c ∧
          command i cu du body s = .next (s.raise c i.opcode i.ch i.data)) ∨
        (operandCause cu du s.cfg.nch i.ch i.data = none ∧ command i cu du body s = body s))) := by
  unfold command
  cases hf : s.fault <;> cases hr : runsInFault i.opcode <;> simp
  all_goals
    cases ho : operandCause cu du s.cfg.nch i.ch i.data <;> simp

/-! ### The operand uses and the effects, as functions of the command -/

/-- How the command uses `CH`. -/
def chUseOf : Instr → ChUse
  | .nop _ _ => .zero
  | .frst _ _ => .channel
  | .fproc _ _ => .channel
  | .rdfs _ _ => .channel
  | .push _ _ => .channel
  | .msq _ _ => .channel
  | .wsum _ _ => .zero
  | .rdblk _ _ => .channel
  | .rdblke _ _ => .zero
  | .blkack _ _ => .zero
  | .crst _ _ => .channel
  | .mrst _ _ => .zero
  | .rdbuf _ _ => .channel
  | .rdw _ _ => .channel
  | .tpin _ _ => .zero
  | .tprun _ _ => .zero
  | .tprd _ _ => .zero
  | .tprst _ _ => .zero
  | .rdreg _ _ => .register

/-- How the command uses `DATA`. -/
def dataUseOf (s : State) : Instr → DataUse
  | .nop _ _ => .zero
  | .frst _ _ => .zero
  | .fproc _ _ => .sample
  | .rdfs _ _ => .index 4
  | .push _ _ => .sample
  | .msq _ _ => .zero
  | .wsum _ _ => .zero
  | .rdblk _ _ => .zero
  | .rdblke _ _ => .zero
  | .blkack _ _ => .zero
  | .crst _ _ => .zero
  | .mrst _ _ => .zero
  | .rdbuf _ _ => .index s.cfg.bufLen
  | .rdw _ _ => .zero
  | .tpin _ _ => .sample
  | .tprun _ _ => .zero
  | .tprd _ _ => .zero
  | .tprst _ _ => .zero
  | .rdreg _ _ => .zero

/-- `PUSH` before its response: the sample stored, and the frame committed if it is full. -/
def pushed (s : State) (ch : BitVec 8) (data : BitVec 64) : State :=
  if (s.storeSample ch.toNat data).frameFull then (s.storeSample ch.toNat data).frameCommit
  else s.storeSample ch.toNat data

/-- `TPRUN` after an answer, before its response. -/
def ran (s : State) (rest : List ResamplerMove) (r : Reply) : State :=
  { s with requests := s.requests ++ [s.request], replies := rest }.finishRun r

/-- The command's own rule has led from `s` to `t`. -/
def Done : Instr → State → State → Prop
  | .nop _ _, s, t => t = s.respond 0
  | .frst ch _, s, t => t = (s.updChan ch.toNat Channel.clearFilter).respond 0
  | .fproc ch data, s, t => t = (s.updChan ch.toNat (fun k => (cascade s.draws s.cfg k data).1)).drawn.respond
      (cascade s.draws s.cfg (s.chan ch.toNat) data).2
  | .rdfs ch data, s, t => t = s.respond ((s.chan ch.toNat).filterReg data.toNat)
  | .push ch data, s, t => t = (pushed s ch data).drawn.respond (cascade s.draws s.cfg (s.chan ch.toNat) data).2
  | .msq ch _, s, t => t = s.drawn.respond
      (meanSquare s.draws (meanSite s.cfg.bufLen ch.toNat) s.cfg.bufLen (s.chan ch.toNat).buf)
  | .wsum _ _, s, t => t = s.drawn.respond s.energy
  | .rdblk ch _, s, t => t = s.respond (s.chan ch.toNat).blkMs
  | .rdblke _ _, s, t => t = s.respond s.blkE
  | .blkack _ _, s, t => t = { s with blockReady := false, ovr := false }.respond 0
  | .crst ch _, s, t => t = (s.updChan ch.toNat (fun k => { k.clearFilter with buf := [] })).respond 0
  | .mrst _ _, s, t => t = s.meterReset.respond 0
  | .rdbuf ch data, s, t => t = s.respond ((s.chan ch.toNat).buf.read data.toNat)
  | .rdw ch _, s, t => t = s.respond (s.cfg.w.getD ch.toNat 0)
  | .tpin _ data, s, t => t = { s with
      tpi := s.tpi.write s.tpFill.toNat (fmul s.draws 0 data s.cfg.gIn), tpFill := s.tpFill + 1 }.drawn.respond
      (fmul s.draws 0 data s.cfg.gIn)
  | .tprun _ _, s, t =>
    (∃ r rest, ((s.replies = [] ∧ rest = [] ∧ r = cutReply s.cfg s.request.frames (Config.freeReply s.draws)) ∨
        (s.replies = .answer r :: rest ∧ replyConforms s.cfg s.request.frames r = true)) ∧
      t = (ran s rest r).drawn.respond (ran s rest r).tpGain) ∨
    (∃ rest, s.replies = .silent :: rest ∧ t = s.await rest)
  | .tprd _ _, s, t => t = s.respond s.tpGain
  | .tprst _ _, s, t => t = { s with tpGain := 0, tpFill := 0, tpTouched := false }.respond 0
  | .rdreg ch _, s, t => t = s.respond (regValue s ch)

/-- The body of each meaning: the own condition is raised, or the own rule is done, or the resampler breaks its contract. -/
def bodyOf : Instr → State → Result
  | .nop _ _, s => .next (s.respond 0)
  | .frst ch _, s => .next ((s.updChan ch.toNat Channel.clearFilter).respond 0)
  | .fproc ch data, s => .next ((s.updChan ch.toNat (fun k => (cascade s.draws s.cfg k data).1)).drawn.respond
      (cascade s.draws s.cfg (s.chan ch.toNat) data).2)
  | .rdfs ch data, s => .next (s.respond ((s.chan ch.toNat).filterReg data.toNat))
  | .push ch data, s =>
    if (s.chan ch.toNat).pushed then .next (s.raise .frameSeq (Instr.push ch data).opcode ch data)
    else .next ((pushed s ch data).drawn.respond (cascade s.draws s.cfg (s.chan ch.toNat) data).2)
  | .msq ch _, s => .next (s.drawn.respond
      (meanSquare s.draws (meanSite s.cfg.bufLen ch.toNat) s.cfg.bufLen (s.chan ch.toNat).buf))
  | .wsum _ _, s => .next (s.drawn.respond s.energy)
  | .rdblk ch _, s => .next (s.respond (s.chan ch.toNat).blkMs)
  | .rdblke _ _, s => .next (s.respond s.blkE)
  | .blkack _ _, s => .next ({ s with blockReady := false, ovr := false }.respond 0)
  | .crst ch _, s => .next ((s.updChan ch.toNat (fun k => { k.clearFilter with buf := [] })).respond 0)
  | .mrst _ _, s => .next (s.meterReset.respond 0)
  | .rdbuf ch data, s => .next (s.respond ((s.chan ch.toNat).buf.read data.toNat))
  | .rdw ch _, s => .next (s.respond (s.cfg.w.getD ch.toNat 0))
  | .tpin ch data, s =>
    if s.tpFill.toNat = s.cfg.tpCap then .next (s.raise .tpBufOver (Instr.tpin ch data).opcode ch data)
    else .next ({ s with
      tpi := s.tpi.write s.tpFill.toNat (fmul s.draws 0 data s.cfg.gIn), tpFill := s.tpFill + 1 }.drawn.respond
      (fmul s.draws 0 data s.cfg.gIn))
  | .tprun ch data, s =>
    if s.tpFill.toNat % s.cfg.tpNch ≠ 0 then .next (s.raise .tpFramePartial (Instr.tprun ch data).opcode ch data)
    else
      match s.replies with
      | [] =>
        .next ((ran s s.replies (cutReply s.cfg s.request.frames (Config.freeReply s.draws))).drawn.respond
          (ran s s.replies (cutReply s.cfg s.request.frames (Config.freeReply s.draws))).tpGain)
      | .silent :: rest => .next (s.await rest)
      | .answer r :: rest =>
        if replyConforms s.cfg s.request.frames r then .next ((ran s rest r).drawn.respond (ran s rest r).tpGain)
        else .refused .resamplerBreach
  | .tprd _ _, s => .next (s.respond s.tpGain)
  | .tprst _ _, s => .next ({ s with tpGain := 0, tpFill := 0, tpTouched := false }.respond 0)
  | .rdreg ch _, s => .next (s.respond (regValue s ch))

theorem exec_eq_command (i : Instr) (s : State) : exec i s = command i (chUseOf i) (dataUseOf s i) (bodyOf i) s := by
  cases i <;> rfl

/-- The operand check and the well-formedness of a command use the same register map (R202). -/
theorem regDefined_eq (idx : BitVec 8) : regDefined idx = regIndexDefined idx := rfl

/-- The checks of R73 steps 3 to 5 are the first three conditions of `firstCause`. -/
theorem operandCause_eq (i : Instr) (s : State) :
    operandCause (chUseOf i) (dataUseOf s i) s.cfg.nch i.ch i.data =
      if !i.reservedZero then some .reservedField
      else if namesChannel i && decide (s.cfg.nch ≤ i.ch.toNat) then some .badChannel
      else if indexOut i s then some .badIndex
      else none := by
  cases i <;>
    simp [operandCause, chUseOf, dataUseOf, ChUse.reserved, DataUse.reserved, ChUse.badChannel, ChUse.badIndex,
      DataUse.badIndex, Instr.reservedZero, Instr.chMustBeZero, Instr.dataMustBeZero, namesChannel, indexOut, indexBound,
      Instr.ch, Instr.data, regDefined_eq, bne]

theorem firstCause_of_operand {i : Instr} {s : State} {c : Cause}
    (h : operandCause (chUseOf i) (dataUseOf s i) s.cfg.nch i.ch i.data = some c) : firstCause i s = some c := by
  rw [operandCause_eq] at h
  unfold firstCause
  split_ifs at h ⊢ <;> simp_all

theorem firstCause_of_none {i : Instr} {s : State}
    (h : operandCause (chUseOf i) (dataUseOf s i) s.cfg.nch i.ch i.data = none) : firstCause i s = ownCause s i := by
  rw [operandCause_eq] at h
  unfold firstCause
  split_ifs at h ⊢
  rfl

/-- Where no condition holds, the command's own does not. -/
theorem ownCause_of_none {i : Instr} {s : State} (h : firstCause i s = none) : ownCause s i = none := by
  unfold firstCause at h
  split_ifs at h
  exact h

/-- A proper command that names a channel names one of the instance's. -/
theorem Proper.channel {i : Instr} {s : State} (h : Proper i s) (hn : namesChannel i = true) : i.ch.toNat < s.cfg.nch := by
  have h := h.2
  unfold firstCause at h
  split_ifs at h with h1 h2
  simpa [hn] using h2

/-- A proper command's index is in range. -/
theorem Proper.index {i : Instr} {s : State} (h : Proper i s) : indexOut i s = false := by
  have h := h.2
  unfold firstCause at h
  split_ifs at h with h1 h2 h3
  simpa using h3

/-- The low 64 bits of a response word are its `DATA` (R72). -/
theorem responseWord_data (s : State) (d : BitVec 64) : (responseWord s d).extractLsb' 0 64 = d := by
  apply BitVec.eq_of_getLsbD_eq
  intro k hk
  rw [responseWord, BitVec.getLsbD_extractLsb', decide_eq_true hk, Bool.true_and]
  show (statusByte s ++ d : BitVec (8 + 64)).getLsbD (0 + k) = _
  rw [BitVec.getLsbD_append, if_pos (by omega), Nat.zero_add]

/-- Responding changes nothing that R20 names. -/
theorem State.respond_sameBlock (s : State) (d : BitVec 64) : SameBlock s (s.respond d) :=
  ⟨rfl, ⟨rfl, rfl, rfl, rfl, rfl, rfl⟩, ⟨rfl, rfl, rfl, rfl⟩, rfl, rfl, rfl⟩

/-- A `TPRUN` that waits has changed nothing that R20 names, and given no response. -/
theorem State.await_stays (s : State) (later : List ResamplerMove) : SameBlock s (s.await later) ∧
    (s.await later).port = s.port ∧ (s.await later).rsps = s.rsps ∧ (s.await later).draws = s.draws :=
  ⟨⟨rfl, ⟨rfl, rfl, rfl, rfl, rfl, rfl⟩, ⟨rfl, rfl, rfl, rfl⟩, rfl, rfl, rfl⟩, rfl, rfl, rfl⟩

/-- What a body does: raise the own condition, or, where there is none, do the own rule or stop at a breach of the resampler's
contract. -/
theorem bodyOf_cases (i : Instr) (s : State) :
    (∃ c, ownCause s i = some c ∧ bodyOf i s = .next (s.raise c i.opcode i.ch i.data)) ∨
    (ownCause s i = none ∧
      ((∃ t, Done i s t ∧ bodyOf i s = .next t) ∨
       (∃ ch data a rest, i = .tprun ch data ∧ s.replies = .answer a :: rest ∧
          replyConforms s.cfg s.request.frames a = false ∧ bodyOf i s = .refused .resamplerBreach))) := by
  cases i with
  | push ch data =>
    by_cases h : (s.chan ch.toNat).pushed = true
    · exact .inl ⟨.frameSeq, by simp [ownCause, h], by simp [bodyOf, h, Instr.ch, Instr.data]⟩
    · exact .inr ⟨by simp [ownCause, h], .inl ⟨_, rfl, by simp [bodyOf, h]⟩⟩
  | tpin ch data =>
    by_cases h : s.tpFill.toNat = s.cfg.tpCap
    · exact .inl ⟨.tpBufOver, by simp [ownCause, h], by simp [bodyOf, h, Instr.ch, Instr.data]⟩
    · exact .inr ⟨by simp [ownCause, h], .inl ⟨_, rfl, by simp [bodyOf, h]⟩⟩
  | tprun ch data =>
    by_cases h : s.tpFill.toNat % s.cfg.tpNch = 0
    · refine .inr ⟨by simp [ownCause, h], ?_⟩
      cases hr : s.replies with
      | nil => exact .inl ⟨_, .inl ⟨_, _, .inl ⟨hr, rfl, rfl⟩, rfl⟩, by simp [bodyOf, h, hr]⟩
      | cons r rest =>
        cases r with
        | silent => exact .inl ⟨_, .inr ⟨rest, hr, rfl⟩, by simp [bodyOf, h, hr]⟩
        | answer a =>
          cases hc : replyConforms s.cfg s.request.frames a with
          | true => exact .inl ⟨_, .inl ⟨a, rest, .inr ⟨hr, hc⟩, rfl⟩, by simp [bodyOf, h, hr, hc]⟩
          | false => exact .inr ⟨ch, data, a, rest, rfl, rfl, hc, by simp [bodyOf, h, hr, hc]⟩
    · exact .inl ⟨.tpFramePartial, by simp [ownCause, h], by simp [bodyOf, h, Instr.ch, Instr.data]⟩
  | nop ch data => exact .inr ⟨rfl, .inl ⟨_, rfl, rfl⟩⟩
  | frst ch data => exact .inr ⟨rfl, .inl ⟨_, rfl, rfl⟩⟩
  | fproc ch data => exact .inr ⟨rfl, .inl ⟨_, rfl, rfl⟩⟩
  | rdfs ch data => exact .inr ⟨rfl, .inl ⟨_, rfl, rfl⟩⟩
  | msq ch data => exact .inr ⟨rfl, .inl ⟨_, rfl, rfl⟩⟩
  | wsum ch data => exact .inr ⟨rfl, .inl ⟨_, rfl, rfl⟩⟩
  | rdblk ch data => exact .inr ⟨rfl, .inl ⟨_, rfl, rfl⟩⟩
  | rdblke ch data => exact .inr ⟨rfl, .inl ⟨_, rfl, rfl⟩⟩
  | blkack ch data => exact .inr ⟨rfl, .inl ⟨_, rfl, rfl⟩⟩
  | crst ch data => exact .inr ⟨rfl, .inl ⟨_, rfl, rfl⟩⟩
  | mrst ch data => exact .inr ⟨rfl, .inl ⟨_, rfl, rfl⟩⟩
  | rdbuf ch data => exact .inr ⟨rfl, .inl ⟨_, rfl, rfl⟩⟩
  | rdw ch data => exact .inr ⟨rfl, .inl ⟨_, rfl, rfl⟩⟩
  | tprd ch data => exact .inr ⟨rfl, .inl ⟨_, rfl, rfl⟩⟩
  | tprst ch data => exact .inr ⟨rfl, .inl ⟨_, rfl, rfl⟩⟩
  | rdreg ch data => exact .inr ⟨rfl, .inl ⟨_, rfl, rfl⟩⟩

/-! ### Everything `exec` can answer -/

/-- In the fault state everything but `NOP` and `RDREG` is not executed (R246). -/
theorem exec_of_fault {i : Instr} {s : State} (h : s.fault = true) (hr : runsInFault i.opcode = false) :
    exec i s = .next (s.respond 0) := by
  rw [exec_eq_command]
  rcases command_cases i (chUseOf i) (dataUseOf s i) (bodyOf i) s with ⟨-, -, h'⟩ | ⟨h', -⟩
  · exact h'
  · simp [h, hr] at h'

/-- A command that is executed raises the first condition that holds (R243). -/
theorem exec_of_cause {i : Instr} {s : State} {c : Cause} (hx : s.fault = false ∨ runsInFault i.opcode = true)
    (h : firstCause i s = some c) : exec i s = .next (s.raise c i.opcode i.ch i.data) := by
  rw [exec_eq_command]
  rcases command_cases i (chUseOf i) (dataUseOf s i) (bodyOf i) s with ⟨h1, h2, -⟩ | ⟨-, ⟨c', hc, h'⟩ | ⟨hn, h'⟩⟩
  · simp [h1, h2] at hx
  · rw [firstCause_of_operand hc] at h
    rw [h', Option.some.inj h]
  · rw [firstCause_of_none hn] at h
    rcases bodyOf_cases i s with ⟨c', hc, hb⟩ | ⟨hc, -⟩
    · rw [h] at hc
      rw [h', hb, Option.some.inj hc]
    · simp [h] at hc

/-- A command for which no condition holds does its own rule, or stops at a breach of the resampler's contract. -/
theorem exec_of_none {i : Instr} {s : State} (hx : s.fault = false ∨ runsInFault i.opcode = true)
    (h : firstCause i s = none) : exec i s = bodyOf i s ∧ ownCause s i = none := by
  rw [exec_eq_command]
  rcases command_cases i (chUseOf i) (dataUseOf s i) (bodyOf i) s with ⟨h1, h2, -⟩ | ⟨-, ⟨c', hc, h'⟩ | ⟨hn, h'⟩⟩
  · simp [h1, h2] at hx
  · simp [firstCause_of_operand hc] at h
  · exact ⟨h', by rw [← firstCause_of_none hn, h]⟩

/-- A proper command other than `TPRUN` does its own rule. -/
theorem exec_proper {i : Instr} {s : State} (h : Proper i s) (ht : ∀ ch data, i ≠ .tprun ch data) :
    ∃ t, exec i s = .next t ∧ Done i s t := by
  obtain ⟨he, ho⟩ := exec_of_none (.inl h.1) h.2
  rcases bodyOf_cases i s with ⟨c, hc, -⟩ | ⟨-, ⟨t, hd, hb⟩ | ⟨ch, data, -, -, hi, -⟩⟩
  · simp [ho] at hc
  · exact ⟨t, he.trans hb, hd⟩
  · exact absurd hi (ht ch data)

/-- The inversion: whenever `exec` answers a next state, the block was in the fault state and only responded, or it raised the
first condition, or it did the command's own rule. -/
theorem exec_next {i : Instr} {s t : State} (h : exec i s = .next t) :
    (s.fault = true ∧ t = s.respond 0) ∨
    (∃ c, s.fault = false ∧ firstCause i s = some c ∧ t = s.raise c i.opcode i.ch i.data) ∨
    (firstCause i s = none ∧ (s.fault = false ∨ runsInFault i.opcode = true) ∧ Done i s t) := by
  by_cases hx : s.fault = false ∨ runsInFault i.opcode = true
  · cases hc : firstCause i s with
    | some c =>
      have h1 := (exec_of_cause hx hc).symm.trans h
      cases hf : s.fault with
      | true =>
        rw [State.raise_of_fault hf] at h1
        exact .inl ⟨rfl, by simpa using h1.symm⟩
      | false => exact .inr (.inl ⟨c, rfl, rfl, by simpa using h1.symm⟩)
    | none =>
      obtain ⟨he, ho⟩ := exec_of_none hx hc
      rcases bodyOf_cases i s with ⟨c, hc', -⟩ | ⟨-, ⟨t', hd, hb⟩ | ⟨_, _, _, _, _, _, _, hb⟩⟩
      · simp [ho] at hc'
      · have : t' = t := by simpa [hb] using he.symm.trans h
        exact .inr (.inr ⟨rfl, hx, this ▸ hd⟩)
      · simp [he, hb] at h
  · simp only [not_or, Bool.not_eq_false, Bool.not_eq_true] at hx
    have h1 := (exec_of_fault hx.1 hx.2).symm.trans h
    exact .inl ⟨hx.1, by simpa using h1.symm⟩

/-- The inversion of a step: idle, `rst`, or, where no `TPRUN` waits, an undefined opcode or a decoded command. -/
theorem step_next {s t : State} (h : step s = .next t) :
    (s.port = [] ∧ t = s) ∨
    (∃ d rest, s.port = .rst d :: rest ∧ t = { s with port := rest }.rst) ∨
    (∃ w rest e, s.port = .cmd w :: rest ∧ s.waiting = false ∧ decode w = .error e ∧
      t = { s with port := rest }.raise .illegalOp (opField w) (chField w) (dataField w)) ∨
    (∃ w rest i, s.port = .cmd w :: rest ∧ s.waiting = false ∧ decode w = .ok i ∧
      exec i { s with port := rest } = .next t) := by
  unfold step at h
  cases hp : s.port with
  | nil =>
    rw [hp] at h
    exact .inl ⟨rfl, by simpa using h.symm⟩
  | cons e rest =>
    simp only [hp, takeEvent] at h
    split at h
    · cases e with
      | rst d => exact .inr (.inl ⟨d, rest, rfl, by simpa using h.symm⟩)
      | cmd w =>
        cases hw : s.waiting with
        | true => simp [hw] at h
        | false =>
          simp only [hw, Bool.false_eq_true, if_false, acceptWord, illegalWord] at h
          cases hd : decode w with
          | ok i =>
            rw [hd] at h
            exact .inr (.inr (.inr ⟨w, rest, i, rfl, rfl, hd, h⟩))
          | error er =>
            rw [hd] at h
            exact .inr (.inr (.inl ⟨w, rest, er, rfl, rfl, hd, by simpa [hw] using h.symm⟩))
    · simp at h

end Sys2Proof.Machine
end

