-- ==== Sys2Proof/Laws/Float.lean ====
section
/-! SUPPORT. binary64: patterns, NaN, signs, and what one rounding does. -/

namespace Sys2Proof.Machine

/-! ### Patterns -/

theorem infMag_eq : infMag = 2047 * 2 ^ 52 := by decide

theorem mag_lt (a : F64) : mag a < 2 ^ 63 := Nat.mod_lt _ (by decide)

theorem pack_toNat (n : Bool) {m : Nat} (h : m < 2 ^ 63) : (pack n m).toNat = (if n then 2 ^ 63 else 0) + m := by
  simp only [pack, BitVec.toNat_ofNat]
  apply Nat.mod_eq_of_lt
  cases n <;> simp only [Bool.false_eq_true, if_true, if_false] <;> omega

@[simp] theorem mag_pack (n : Bool) {m : Nat} (h : m < 2 ^ 63) : mag (pack n m) = m := by
  rw [mag, pack_toNat n h]
  cases n <;> simp <;> omega

@[simp] theorem sign_pack (n : Bool) {m : Nat} (h : m < 2 ^ 63) : sign (pack n m) = n := by
  rw [sign, BitVec.msb_eq_decide, pack_toNat n h]
  cases n
  · simp; omega
  · simp

theorem toNat_eq_sign_mag (a : F64) : a.toNat = (if sign a then 2 ^ 63 else 0) + mag a := by
  have h := a.isLt
  rw [sign, BitVec.msb_eq_decide, mag]
  by_cases h1 : 2 ^ 63 ≤ a.toNat
  · rw [if_pos (by simpa using h1)]; omega
  · rw [if_neg (by simpa using h1)]; omega

/-- A pattern is its sign and its magnitude. -/
theorem pack_sign_mag (a : F64) : pack (sign a) (mag a) = a := by
  apply BitVec.eq_of_toNat_eq
  rw [pack_toNat _ (mag_lt a), ← toNat_eq_sign_mag]

theorem eq_of_sign_mag {a b : F64} (hs : sign a = sign b) (hm : mag a = mag b) : a = b := by
  rw [← pack_sign_mag a, ← pack_sign_mag b, hs, hm]

theorem roundMag_le (n d : Nat) : roundMag n d ≤ infMag := Nat.min_le_right _ _

theorem roundMag_lt (n d : Nat) : roundMag n d < 2 ^ 63 := Nat.lt_of_le_of_lt (roundMag_le n d) (by decide)

theorem infMag_lt : infMag < 2 ^ 63 := by decide

/-- A rounded result is no NaN. -/
@[simp] theorem isNan_pack_roundMag (s : Bool) (n d : Nat) : isNan (pack s (roundMag n d)) = false := by
  simp [isNan, mag_pack s (roundMag_lt n d), roundMag_le]

@[simp] theorem isNan_pack_inf (s : Bool) : isNan (pack s infMag) = false := by
  simp [isNan, mag_pack s infMag_lt]

@[simp] theorem isNan_pack_zero (s : Bool) : isNan (pack s 0) = false := by cases s <;> decide

@[simp] theorem sign_pack_roundMag (s : Bool) (n d : Nat) : sign (pack s (roundMag n d)) = s := sign_pack s (roundMag_lt n d)

@[simp] theorem sign_pack_inf (s : Bool) : sign (pack s infMag) = s := sign_pack s infMag_lt

theorem isNan_of_isInf {a : F64} (h : isInf a = true) : isNan a = false := by
  simp only [isInf, beq_iff_eq] at h
  simp [isNan, h]

theorem isNan_of_isFinite {a : F64} (h : isFinite a = true) : isNan a = false := by
  simp only [isFinite, decide_eq_true_eq] at h
  simp only [isNan, decide_eq_false_iff_not]
  omega

theorem isInf_of_isFinite {a : F64} (h : isFinite a = true) : isInf a = false := by
  simp only [isFinite, decide_eq_true_eq] at h
  simp only [isInf, beq_eq_false_iff_ne]
  omega

theorem isFinite_of_isZero {a : F64} (h : isZero a = true) : isFinite a = true := by
  simp only [isZero, beq_iff_eq] at h
  simp [isFinite, h, infMag]

/-- Finite, infinite or NaN. -/
theorem isFinite_or (a : F64) : isFinite a = true ∨ isInf a = true ∨ isNan a = true := by
  simp only [isFinite, isInf, isNan, decide_eq_true_eq, beq_iff_eq]
  omega

/-! ### NaN -/

theorem nanAt_toNat (d k : Nat) :
    (nanAt d k).toNat = ((Config.freeNan d k).extractLsb' 51 1).toNat * 2 ^ 63 + 0xFFF * 2 ^ 51
      + ((Config.freeNan d k).extractLsb' 0 51).toNat := by
  rw [nanAt, BitVec.toNat_append, BitVec.toNat_append, ← Nat.shiftLeft_add_eq_or_of_lt (by exact BitVec.isLt _),
    ← Nat.shiftLeft_add_eq_or_of_lt (by exact BitVec.isLt _)]
  simp only [Nat.shiftLeft_eq, BitVec.toNat_ofNat]
  omega

/-- A drawn NaN is quiet, whatever the draw. -/
@[simp] theorem isQuietNan_nanAt (d k : Nat) : isQuietNan (nanAt d k) = true := by
  have h1 := ((Config.freeNan d k).extractLsb' 51 1).isLt
  have h2 := ((Config.freeNan d k).extractLsb' 0 51).isLt
  have h3 := nanAt_toNat d k
  rw [isQuietNan, decide_eq_true_eq, mag]
  omega

theorem isNan_of_isQuietNan {a : F64} (h : isQuietNan a = true) : isNan a = true := by
  simp only [isQuietNan, decide_eq_true_eq] at h
  rw [isNan, decide_eq_true_eq, infMag]
  omega

@[simp] theorem isNan_nanAt (d k : Nat) : isNan (nanAt d k) = true := isNan_of_isQuietNan (isQuietNan_nanAt d k)

theorem addFinite_not_nan (a b : F64) : isNan (addFinite a b) = false := by
  unfold addFinite
  split <;> simp

/-- Every sum is a drawn NaN or no NaN. -/
theorem fadd_cases (d k : Nat) (a b : F64) : fadd d k a b = nanAt d k ∨ isNan (fadd d k a b) = false := by
  unfold fadd
  split
  · exact .inl rfl
  · rename_i h
    simp only [Bool.or_eq_true, not_or, Bool.not_eq_true] at h
    split
    · split
      · exact .inl rfl
      · exact .inr h.1
    · split
      · exact .inr h.2
      · exact .inr (addFinite_not_nan a b)

theorem fmul_cases (d k : Nat) (a b : F64) : fmul d k a b = nanAt d k ∨ isNan (fmul d k a b) = false := by
  unfold fmul
  split
  · exact .inl rfl
  · split
    · split
      · exact .inl rfl
      · exact .inr (by simp)
    · exact .inr (by simp)

theorem fdiv_cases (d k : Nat) (a b : F64) : fdiv d k a b = nanAt d k ∨ isNan (fdiv d k a b) = false := by
  unfold fdiv
  split
  · exact .inl rfl
  · split
    · split
      · exact .inl rfl
      · exact .inr (by simp)
    · split
      · exact .inr (by simp)
      · split
        · split
          · exact .inl rfl
          · exact .inr (by simp)
        · exact .inr (by simp)

theorem notSignalling_of_cases {a : F64} {d k : Nat} (h : a = nanAt d k ∨ isNan a = false) : notSignalling a := by
  intro hn
  rcases h with rfl | h
  · simp
  · simp [h] at hn

/-- No operation answers a signalling NaN (R22, R106). -/
theorem fadd_notSignalling (d k : Nat) (a b : F64) : notSignalling (fadd d k a b) := notSignalling_of_cases (fadd_cases d k a b)

theorem fsub_notSignalling (d k : Nat) (a b : F64) : notSignalling (fsub d k a b) := fadd_notSignalling d k a (fneg b)

/-- A sum that is no NaN does not depend on the draw. -/
theorem fadd_draw {d k d' k' : Nat} {a b : F64} (h : isNan (fadd d k a b) = false) : fadd d' k' a b = fadd d k a b := by
  unfold fadd at h ⊢
  split
  · rename_i h1
    simp [h1] at h
  · rename_i h1
    simp only [h1] at h ⊢
    split
    · rename_i h2
      simp only [h2] at h ⊢
      split
      · rename_i h3
        simp [h3] at h
      · rfl
    · rfl

theorem fsub_draw {d k d' k' : Nat} {a b : F64} (h : isNan (fsub d k a b) = false) : fsub d' k' a b = fsub d k a b :=
  fadd_draw h

theorem fmul_draw {d k d' k' : Nat} {a b : F64} (h : isNan (fmul d k a b) = false) : fmul d' k' a b = fmul d k a b := by
  unfold fmul at h ⊢
  split
  · rename_i h1
    simp [h1] at h
  · rename_i h1
    simp only [h1] at h ⊢
    split
    · rename_i h2
      simp only [h2] at h ⊢
      split
      · rename_i h3
        simp [h3] at h
      · rfl
    · rfl

/-! ### Signs -/

theorem sign_fneg (a : F64) : sign (fneg a) = !sign a := by
  have h : BitVec.msb (0x8000000000000000 : F64) = true := by decide
  simp only [sign, fneg, BitVec.msb_xor, h, Bool.xor_true]

theorem mag_fneg (a : F64) : mag (fneg a) = mag a := by
  have h : ∀ i, i < 63 → Nat.testBit 0x8000000000000000 i = false := fun i hi => by
    rw [show (0x8000000000000000 : Nat) = 2 ^ 63 by decide, Nat.testBit_two_pow]
    simpa using (by omega : ¬ 63 = i)
  apply Nat.eq_of_testBit_eq
  intro i
  simp only [mag, fneg, BitVec.toNat_xor, Nat.testBit_mod_two_pow, Nat.testBit_xor]
  by_cases hi : i < 63
  · have := h i hi
    simp [hi, this]
  · simp [hi]

theorem fabs_toNat (a : F64) : (fabs a).toNat = mag a := by
  rw [fabs, BitVec.toNat_and, mag, ← Nat.and_two_pow_sub_one_eq_mod]
  rfl

@[simp] theorem mag_fabs (a : F64) : mag (fabs a) = mag a := by
  rw [mag, fabs_toNat]
  exact Nat.mod_eq_of_lt (mag_lt a)

@[simp] theorem sign_fabs (a : F64) : sign (fabs a) = false := by
  have h := mag_lt a
  rw [sign, BitVec.msb_eq_decide, fabs_toNat]
  simp only [decide_eq_false_iff_not]
  omega

@[simp] theorem isNan_fabs (a : F64) : isNan (fabs a) = isNan a := by simp [isNan]

theorem order_fabs (a : F64) : order (fabs a) = mag a := by simp [order]

/-- `fgt` as a comparison of places in the order. -/
theorem fgt_iff {a b : F64} : fgt a b = true ↔ isNan a = false ∧ isNan b = false ∧ order b < order a := by
  simp [fgt, and_assoc]

/-! ### Exact values -/

/-- `units` of a pattern, from its magnitude alone. -/
def unitsOf (m : Nat) : Nat := if m / 2 ^ 52 = 0 then m else (2 ^ 52 + m % 2 ^ 52) * 2 ^ (m / 2 ^ 52 - 1)

theorem units_eq (a : F64) : units a = unitsOf (mag a) := rfl

theorem exact_eq (a : F64) : exact a = if sign a then -(unitsOf (mag a) : Int) else unitsOf (mag a) := rfl

theorem exact_fneg (a : F64) : exact (fneg a) = -exact a := by
  rw [exact_eq, exact_eq, sign_fneg, mag_fneg]
  cases sign a <;> simp

theorem unitsOf_eq_zero {m : Nat} : unitsOf m = 0 ↔ m = 0 := by
  unfold unitsOf
  split
  · rfl
  · rename_i h
    have : m ≠ 0 := by rintro rfl; simp at h
    have h2 : 0 < 2 ^ (m / 2 ^ 52 - 1) := Nat.two_pow_pos _
    constructor
    · intro h0
      rcases Nat.mul_eq_zero.mp h0 with h0 | h0
      · omega
      · omega
    · intro h0
      exact absurd h0 this

theorem units_eq_zero {a : F64} : units a = 0 ↔ isZero a = true := by
  rw [units_eq, unitsOf_eq_zero, isZero, beq_iff_eq]

/-- The magnitude `k * 2^52 + m` with a significand `m` of the binade `k` stands for `m * 2^k`, also where `m` is subnormal
(`k = 0`) or `2^53`. -/
theorem unitsOf_pieces {k m : Nat} (hm : m ≤ 2 ^ 53) (hk : k = 0 ∨ 2 ^ 52 ≤ m) : unitsOf (k * 2 ^ 52 + m) = m * 2 ^ k := by
  unfold unitsOf
  rcases Nat.lt_or_ge m (2 ^ 52) with h | h
  · have : k = 0 := by omega
    subst this
    rw [if_pos (by omega)]
    omega
  · rcases Nat.lt_or_ge m (2 ^ 53) with h2 | h2
    · have e1 : (k * 2 ^ 52 + m) / 2 ^ 52 = k + 1 := by omega
      have e2 : (k * 2 ^ 52 + m) % 2 ^ 52 = m - 2 ^ 52 := by omega
      have e3 : 2 ^ 52 + (m - 2 ^ 52) = m := by omega
      simp only [e1, e2, e3, Nat.add_sub_cancel]
      rw [if_neg (by omega)]
    · have e0 : m = 2 ^ 53 := by omega
      subst e0
      have e1 : (k * 2 ^ 52 + 2 ^ 53) / 2 ^ 52 = k + 2 := by omega
      have e2 : (k * 2 ^ 52 + 2 ^ 53) % 2 ^ 52 = 0 := by omega
      have e3 : k + 2 - 1 = k + 1 := by omega
      simp only [e1, e2, e3]
      rw [if_neg (by omega), Nat.pow_succ]
      omega

/-- The values of the binades above `k` lie on the grid of spacing `2^k`; every other value is below `2^52 * 2^k`. -/
theorem unitsOf_grid (k z : Nat) : (∃ j, unitsOf z = j * 2 ^ k) ∨ unitsOf z < 2 ^ 52 * 2 ^ k := by
  unfold unitsOf
  have hk : 0 < 2 ^ k := Nat.two_pow_pos k
  split
  · rename_i h
    right
    have : z < 2 ^ 52 := by omega
    calc z < 2 ^ 52 := this
      _ ≤ 2 ^ 52 * 2 ^ k := Nat.le_mul_of_pos_right _ hk
  · rename_i h
    rcases Nat.lt_or_ge (z / 2 ^ 52 - 1) k with h2 | h2
    · right
      obtain ⟨j, rfl⟩ : ∃ j, k = (z / 2 ^ 52 - 1) + j + 1 := ⟨k - (z / 2 ^ 52 - 1) - 1, by omega⟩
      have hlt : 2 ^ 52 + z % 2 ^ 52 < 2 ^ 53 := by omega
      generalize z / 2 ^ 52 - 1 = e
      calc (2 ^ 52 + z % 2 ^ 52) * 2 ^ e < 2 ^ 53 * 2 ^ e := Nat.mul_lt_mul_of_pos_right hlt (Nat.two_pow_pos e)
        _ = 2 ^ 52 * 2 ^ (e + 1) := by rw [Nat.pow_succ]; omega
        _ ≤ 2 ^ 52 * 2 ^ (e + j + 1) := Nat.mul_le_mul_left _ (Nat.pow_le_pow_right (by omega) (by omega))
    · left
      obtain ⟨j, hj⟩ : ∃ j, z / 2 ^ 52 - 1 = k + j := ⟨z / 2 ^ 52 - 1 - k, by omega⟩
      refine ⟨(2 ^ 52 + z % 2 ^ 52) * 2 ^ j, ?_⟩
      rw [hj, Nat.pow_add]
      ring

/-! ### One rounding -/

/-- The nearest integer: within half of `den`, and even where it is exactly half away. -/
theorem halfEven_spec (num den : Nat) (hd : 0 < den) :
    2 * num ≤ (2 * halfEven num den + 1) * den ∧ 2 * halfEven num den * den ≤ 2 * num + den ∧
    ((2 * num = (2 * halfEven num den + 1) * den ∨ 2 * halfEven num den * den = 2 * num + den) → halfEven num den % 2 = 0) := by
  have h1 := Nat.div_add_mod num den
  have h2 := Nat.mod_lt num hd
  unfold halfEven
  generalize num / den = q at *
  generalize num % den = r at *
  have e : ∀ x : Nat, (2 * x + 1) * den = 2 * (den * x) + den := fun x => by ring
  have e2 : ∀ x : Nat, 2 * x * den = 2 * (den * x) := fun x => by ring
  have e3 : den * (q + 1) = den * q + den := by ring
  simp only
  split
  · rename_i h
    rw [e, e2, e3]
    refine ⟨by omega, by omega, ?_⟩
    intro h'
    omega
  · rename_i h
    rw [e, e2]
    refine ⟨by omega, by omega, ?_⟩
    intro h'
    omega

/-- Where the excess is positive the number has at least 53 bits above the binade's spacing; it always has at most 53. -/
theorem excess_spec (num den : Nat) (hd : 0 < den) :
    (excess num den = 0 ∨ 2 ^ 52 * (den * 2 ^ excess num den) ≤ num) ∧ num < 2 ^ 53 * (den * 2 ^ excess num den) := by
  unfold excess
  have hdm := Nat.div_add_mod num den
  have hml := Nat.mod_lt num hd
  generalize num / den = q at *
  constructor
  · by_cases h : q.log2 ≤ 52
    · left; omega
    · right
      have hq : q ≠ 0 := by rintro rfl; simp at h
      have h1 := Nat.log2_self_le hq
      obtain ⟨j, hj⟩ : ∃ j, q.log2 = 52 + j := ⟨q.log2 - 52, by omega⟩
      rw [hj, Nat.pow_add] at h1
      rw [hj, Nat.add_sub_cancel_left]
      calc 2 ^ 52 * (den * 2 ^ j) = den * (2 ^ 52 * 2 ^ j) := by ring
        _ ≤ den * q := Nat.mul_le_mul_left _ h1
        _ ≤ num := by omega
  · have h1 : q < 2 ^ (q.log2 + 1) := Nat.lt_log2_self
    have h2 : 2 ^ (q.log2 + 1) ≤ 2 ^ 53 * 2 ^ (q.log2 - 52) := by
      rw [← Nat.pow_add]
      exact Nat.pow_le_pow_right (by omega) (by omega)
    generalize 2 ^ (q.log2 - 52) = p at *
    calc num < den * (q + 1) := by rw [Nat.mul_add]; omega
      _ ≤ den * (2 ^ 53 * p) := Nat.mul_le_mul_left _ (by omega)
      _ = 2 ^ 53 * (den * p) := by ring

/-- The rounded significand fits its binade. -/
theorem halfEven_binade (num den : Nat) (hd : 0 < den) :
    halfEven num (den * 2 ^ excess num den) ≤ 2 ^ 53 ∧
    (excess num den = 0 ∨ 2 ^ 52 ≤ halfEven num (den * 2 ^ excess num den)) := by
  obtain ⟨h1, h2⟩ := excess_spec num den hd
  generalize excess num den = k at *
  have hD : 0 < den * 2 ^ k := Nat.mul_pos hd (Nat.two_pow_pos k)
  generalize den * 2 ^ k = D at *
  obtain ⟨h3, h4, -⟩ := halfEven_spec num D hD
  generalize halfEven num D = m at *
  constructor
  · by_contra hm
    have : (2 ^ 53 + 1) * D ≤ m * D := Nat.mul_le_mul_right _ (by omega)
    nlinarith
  · rcases h1 with h1 | h1
    · exact .inl h1
    · right
      by_contra hm
      have : m * D ≤ (2 ^ 52 - 1) * D := Nat.mul_le_mul_right _ (by omega)
      nlinarith

/-- `roundMag` below infinity, in its pieces. -/
theorem roundMag_pieces (num den : Nat) (h : roundMag num den < infMag) :
    roundMag num den = excess num den * 2 ^ 52 + halfEven num (den * 2 ^ excess num den) := by
  simp only [roundMag] at h ⊢
  omega

/-- What one rounding does: the result is nearest the exact number among all finite values of either sign, and where another
one is as near, its pattern is even. -/
theorem roundMag_nearest (num den : Nat) (hd : 0 < den) (hfin : roundMag num den < infMag) (z : F64) :
    |(num : Int) - unitsOf (roundMag num den) * den| ≤ |(num : Int) - exact z * den| ∧
    (|(num : Int) - unitsOf (roundMag num den) * den| = |(num : Int) - exact z * den| →
      exact z = unitsOf (roundMag num den) ∨ roundMag num den % 2 = 0) := by
  have hp := roundMag_pieces num den hfin
  obtain ⟨hb1, hb2⟩ := halfEven_binade num den hd
  obtain ⟨hx1, -⟩ := excess_spec num den hd
  have hD : 0 < den * 2 ^ excess num den := Nat.mul_pos hd (Nat.two_pow_pos _)
  obtain ⟨hs1, hs2, hs3⟩ := halfEven_spec num (den * 2 ^ excess num den) hD
  have hu : unitsOf (roundMag num den) = halfEven num (den * 2 ^ excess num den) * 2 ^ excess num den := by
    rw [hp]
    exact unitsOf_pieces hb1 hb2
  have hpar : roundMag num den % 2 = halfEven num (den * 2 ^ excess num den) % 2 := by omega
  rw [hu, hpar]
  have hgrid := unitsOf_grid (excess num den) (mag z)
  clear hp hu hpar hfin
  generalize halfEven num (den * 2 ^ excess num den) = m at *
  generalize excess num den = k at *
  have hP : (0 : Int) < 2 ^ k := by positivity
  have hmul : ((m * 2 ^ k : Nat) : Int) * den = m * ((den * 2 ^ k : Nat) : Int) := by push_cast; ring
  rw [hmul]
  have hDi : (0 : Int) < ((den * 2 ^ k : Nat) : Int) := by exact_mod_cast hD
  have hDdef : ((den * 2 ^ k : Nat) : Int) = (den : Int) * 2 ^ k := by push_cast; ring
  generalize hDe : ((den * 2 ^ k : Nat) : Int) = D at *
  have hs1' : 2 * (num : Int) ≤ (2 * m + 1) * D := by rw [← hDe]; exact_mod_cast hs1
  have hs2' : 2 * (m : Int) * D ≤ 2 * num + D := by rw [← hDe]; exact_mod_cast hs2
  have hs3' : 2 * (num : Int) = (2 * m + 1) * D ∨ 2 * (m : Int) * D = 2 * num + D → m % 2 = 0 := by
    rw [← hDe]
    intro h
    exact hs3 (by exact_mod_cast h)
  have hdi : (0 : Int) < den := by exact_mod_cast hd
  -- the comparison with a grid point
  have key : ∀ j : Int, |(num : Int) - m * D| ≤ |(num : Int) - j * D| ∧
      (|(num : Int) - m * D| = |(num : Int) - j * D| → j = m ∨ m % 2 = 0) := by
    intro j
    have hm : |(num : Int) - m * D| ≤ |(num : Int) - j * D| := by
      rcases lt_trichotomy j m with hj | hj | hj
      · have : j * D + D ≤ m * D := by nlinarith
        rw [abs_le]
        constructor
        · have := le_abs_self ((num : Int) - j * D); nlinarith
        · have := le_abs_self ((num : Int) - j * D); nlinarith
      · rw [hj]
      · have : m * D + D ≤ j * D := by nlinarith
        rw [abs_le]
        constructor
        · have := neg_abs_le ((num : Int) - j * D); nlinarith
        · have := neg_abs_le ((num : Int) - j * D); nlinarith
    refine ⟨hm, fun he => ?_⟩
    rcases lt_trichotomy j m with hj | hj | hj
    · right
      have h1 : j * D + D ≤ m * D := by nlinarith
      have h2 : (num : Int) - j * D ≤ |(num : Int) - m * D| := he ▸ le_abs_self _
      apply hs3'
      right
      rcases abs_cases ((num : Int) - m * D) with ⟨h3, h4⟩ | ⟨h3, h4⟩ <;> rw [h3] at h2 <;> nlinarith
    · exact .inl hj
    · right
      have h1 : m * D + D ≤ j * D := by nlinarith
      have h2 : -((num : Int) - j * D) ≤ |(num : Int) - m * D| := he ▸ neg_le_abs _
      apply hs3'
      left
      rcases abs_cases ((num : Int) - m * D) with ⟨h3, h4⟩ | ⟨h3, h4⟩ <;> rw [h3] at h2 <;> nlinarith
  have hnum : |(num : Int) - m * D| ≤ num := by
    have := (key 0).1
    simpa using this
  -- the value of z
  by_cases hz : sign z = true ∧ unitsOf (mag z) ≠ 0
  · have he : exact z * den = -((unitsOf (mag z) : Int) * den) := by rw [exact_eq, if_pos hz.1]; ring
    have hpos : 0 < (unitsOf (mag z) : Int) * den := by
      have : 0 < (unitsOf (mag z) : Int) := by exact_mod_cast Nat.pos_of_ne_zero hz.2
      positivity
    rw [he, sub_neg_eq_add]
    have hlt : |(num : Int) - m * D| < |(num : Int) + unitsOf (mag z) * den| := by
      have := le_abs_self ((num : Int) + unitsOf (mag z) * den)
      linarith
    exact ⟨hlt.le, fun h => absurd h hlt.ne⟩
  · have he : exact z = (unitsOf (mag z) : Int) := by
      rw [exact_eq]
      split
      · rename_i h
        have : unitsOf (mag z) = 0 := by
          by_contra h0
          exact hz ⟨h, h0⟩
        simp [this]
      · rfl
    rw [he]
    have grid : ∀ j : Nat, unitsOf (mag z) = j * 2 ^ k → |(num : Int) - m * D| ≤ |(num : Int) - (unitsOf (mag z) : Int) * den| ∧
        (|(num : Int) - m * D| = |(num : Int) - (unitsOf (mag z) : Int) * den| →
          (unitsOf (mag z) : Int) = ((m * 2 ^ k : Nat) : Int) ∨ m % 2 = 0) := by
      intro j hj
      have hjD : (unitsOf (mag z) : Int) * den = (j : Int) * D := by rw [hj, hDdef]; push_cast; ring
      rw [hjD]
      refine ⟨(key j).1, fun h => ?_⟩
      rcases (key j).2 h with h | h
      · left
        have : j = m := by exact_mod_cast h
        rw [hj, this]
      · exact .inr h
    rcases hgrid with ⟨j, hj⟩ | hlt
    · exact grid j hj
    · rcases hx1 with hk0 | hx
      · exact grid (unitsOf (mag z)) (by rw [hk0]; simp)
      · have hxi : 2 ^ 52 * D ≤ (num : Int) := by rw [← hDe]; exact_mod_cast hx
        have hzi : (unitsOf (mag z) : Int) * den < 2 ^ 52 * D := by
          have : (unitsOf (mag z) : Int) < 2 ^ 52 * 2 ^ k := by exact_mod_cast hlt
          rw [hDdef]
          nlinarith
        have h52 := (key (2 ^ 52)).1
        rw [abs_of_nonneg (by linarith : (0 : Int) ≤ num - 2 ^ 52 * D)] at h52
        have hlt' : |(num : Int) - m * D| < |(num : Int) - (unitsOf (mag z) : Int) * den| := by
          have := le_abs_self ((num : Int) - (unitsOf (mag z) : Int) * den)
          linarith
        exact ⟨hlt'.le, fun h => absurd h hlt'.ne⟩

/-! ### Results that are exact, and results past the largest finite value -/

theorem unitScale_pos : 0 < unitScale := Nat.two_pow_pos _

theorem roundMag_zero (den : Nat) : roundMag 0 den = 0 := by
  simp [roundMag, excess, halfEven, Nat.log2]

theorem halfEven_mul {s den : Nat} (hd : 0 < den) : halfEven (s * den) den = s := by
  unfold halfEven
  simp [Nat.mul_div_cancel _ hd]
  omega

/-- A finite binary64 value is rounded to itself. -/
theorem roundMag_exact {m den : Nat} (hd : 0 < den) (hm : m < infMag) : roundMag (unitsOf m * den) den = m := by
  have hx : excess (unitsOf m * den) den = m / 2 ^ 52 - 1 ∧
      unitsOf m = (m - (m / 2 ^ 52 - 1) * 2 ^ 52) * 2 ^ (m / 2 ^ 52 - 1) := by
    unfold excess
    rw [Nat.mul_div_cancel _ hd]
    unfold unitsOf
    split
    · rename_i h
      rw [h]
      refine ⟨?_, by simp⟩
      by_cases h0 : m = 0
      · rw [h0]
        rfl
      · have : m.log2 < 53 := (Nat.log2_lt h0).mpr (by omega)
        omega
    · rename_i h
      have e : 2 ^ 52 + m % 2 ^ 52 = m - (m / 2 ^ 52 - 1) * 2 ^ 52 := by omega
      refine ⟨?_, by rw [e]⟩
      have : ((2 ^ 52 + m % 2 ^ 52) * 2 ^ (m / 2 ^ 52 - 1)).log2 = 52 + (m / 2 ^ 52 - 1) := by
        generalize m / 2 ^ 52 - 1 = k
        have h1 := Nat.two_pow_pos k
        rw [Nat.log2_eq_iff (by positivity)]
        constructor
        · rw [Nat.pow_add]
          exact Nat.mul_le_mul_right _ (by omega)
        · rw [show 52 + k + 1 = 53 + k by omega, Nat.pow_add]
          exact Nat.mul_lt_mul_of_pos_right (by omega) h1
      rw [this]
      omega
  unfold roundMag
  rw [hx.1, hx.2]
  dsimp only
  have : (m - (m / 2 ^ 52 - 1) * 2 ^ 52) * 2 ^ (m / 2 ^ 52 - 1) * den =
      (m - (m / 2 ^ 52 - 1) * 2 ^ 52) * (den * 2 ^ (m / 2 ^ 52 - 1)) := by ring
  rw [this, halfEven_mul (Nat.mul_pos hd (Nat.two_pow_pos _))]
  omega

/-- A result is infinite exactly from the largest finite value and half a unit in its last place on (R107). -/
theorem roundMag_inf (num den : Nat) (hd : 0 < den) :
    roundMag num den = infMag ↔ (2 ^ 54 - 1) * 2 ^ 2044 * den ≤ num := by
  obtain ⟨h1, h2⟩ := excess_spec num den hd
  obtain ⟨hb1, hb2⟩ := halfEven_binade num den hd
  obtain ⟨h3, h4, h5⟩ := halfEven_spec num _ (Nat.mul_pos hd (Nat.two_pow_pos (excess num den)))
  have hr : roundMag num den = infMag ↔ infMag ≤ excess num den * 2 ^ 52 + halfEven num (den * 2 ^ excess num den) := by
    unfold roundMag
    dsimp only
    omega
  rw [hr, infMag_eq]
  clear hr
  generalize halfEven num (den * 2 ^ excess num den) = m at *
  generalize excess num den = k at *
  have hP : (2 ^ 54 - 1) * 2 ^ 2044 * den = (2 ^ 54 - 1) * (den * 2 ^ 2044) := by
    generalize 2 ^ 2044 = X
    ring
  rw [hP]
  have mono : ∀ i j, i ≤ j → den * 2 ^ i ≤ den * 2 ^ j := fun i j h =>
    Nat.mul_le_mul_left _ (Nat.pow_le_pow_right (by omega) h)
  have dbl : ∀ i, den * 2 ^ (i + 1) = 2 * (den * 2 ^ i) := fun i => by rw [Nat.pow_succ]; ring
  have hPpos : 0 < den * 2 ^ 2044 := Nat.mul_pos hd (Nat.two_pow_pos _)
  rcases Nat.lt_trichotomy k 2045 with hk | hk | hk
  · have a1 := mono k 2044 (by omega)
    generalize den * 2 ^ 2044 = P at *
    generalize den * 2 ^ k = D at *
    constructor <;> (intro h; omega)
  · subst hk
    have a1 := dbl 2044
    rw [show 2044 + 1 = 2045 from rfl] at a1
    rw [a1] at h1 h2 h3 h4 h5
    generalize den * 2 ^ 2044 = P at *
    rw [show 2047 * 2 ^ 52 ≤ 2045 * 2 ^ 52 + m ↔ m = 2 ^ 53 by omega]
    constructor
    · intro h
      subst h
      omega
    · intro h
      by_contra hne
      rcases Nat.lt_or_ge m (2 ^ 53 - 1) with hlt | hge
      · have : (2 * m + 1) * (2 * P) ≤ (2 * (2 ^ 53 - 2) + 1) * (2 * P) := Nat.mul_le_mul_right _ (by omega)
        omega
      · obtain rfl : m = 2 ^ 53 - 1 := by omega
        have := h5 (.inl (by omega))
        omega
  · have a1 := mono 2046 k (by omega)
    have a2 := dbl 2044
    have a3 := dbl 2045
    rw [show 2044 + 1 = 2045 from rfl] at a2
    rw [show 2045 + 1 = 2046 from rfl, a2] at a3
    generalize den * 2 ^ 2044 = P at *
    generalize den * 2 ^ k = D at *
    generalize den * 2 ^ 2045 = D1 at *
    generalize den * 2 ^ 2046 = D2 at *
    constructor <;> (intro _; omega)

end Sys2Proof.Machine
end

