-- ==== Sys2Proof/Laws/Mem.lean ====
section
/-! SUPPORT. The storage spaces: a read after a write, the canonical form, and what `Shift` leaves. -/

namespace Sys2Proof.Machine

theorem Mem.wfFrom_mono {m : Mem} {a b : Nat} (hab : a ≤ b) (h : m.wfFrom b = true) : m.wfFrom a = true := by
  cases m with
  | nil => rfl
  | cons p r =>
    simp only [Mem.wfFrom, Bool.and_eq_true, decide_eq_true_eq] at h ⊢
    exact ⟨⟨by omega, h.1.2⟩, h.2⟩

/-- Below the lowest listed index everything reads as `+0.0`. -/
theorem Mem.read_below {m : Mem} {lo i : Nat} (h : m.wfFrom lo = true) (hi : i < lo) : m.read i = 0 := by
  induction m generalizing lo with
  | nil => rfl
  | cons p r ih =>
    simp only [Mem.wfFrom, Bool.and_eq_true, decide_eq_true_eq] at h
    have : p.1 ≠ i := by omega
    simp only [Mem.read, this, if_false]
    exact ih h.2 (by omega)

/-- A write leaves every other element. -/
theorem Mem.read_write_other (m : Mem) {i j : Nat} (v : F64) (h : j ≠ i) : (m.write i v).read j = m.read j := by
  induction m with
  | nil => by_cases hv : v = 0#64 <;> simp [Mem.write, Mem.read, hv, Ne.symm h]
  | cons p r ih =>
    simp only [Mem.write]
    split
    · by_cases hv : v = 0#64 <;> simp [Mem.read, hv, Ne.symm h]
    · split
      · rename_i heq
        have : p.1 ≠ j := by omega
        by_cases hv : v = 0#64 <;> simp [Mem.read, hv, Ne.symm h, this]
      · simp [Mem.read, ih]

/-- A space whose first listed index is past `i` has nothing below it. -/
theorem Mem.wfFrom_raise {p : Nat × F64} {r : Mem} {lo i : Nat} (hi : i < p.1) (h : Mem.wfFrom lo (p :: r) = true) :
    Mem.wfFrom (i + 1) (p :: r) = true := by
  simp only [Mem.wfFrom, Bool.and_eq_true, decide_eq_true_eq] at h ⊢
  exact ⟨⟨by omega, h.1.2⟩, h.2⟩

/-- A read after a write gives what was written. -/
theorem Mem.read_write_same {m : Mem} {lo : Nat} (i : Nat) (v : F64) (h : m.wfFrom lo = true) : (m.write i v).read i = v := by
  induction m generalizing lo with
  | nil => by_cases hv : v = 0#64 <;> simp [Mem.write, Mem.read, hv]
  | cons p r ih =>
    have hw := h
    simp only [Mem.wfFrom, Bool.and_eq_true, decide_eq_true_eq] at h
    simp only [Mem.write]
    split
    · rename_i hlt
      by_cases hv : v = 0
      · rw [if_pos hv, hv]
        exact Mem.read_below (lo := i + 1) (Mem.wfFrom_raise (by omega) hw) (by omega)
      · rw [if_neg hv]
        simp [Mem.read]
    · split
      · rename_i heq
        by_cases hv : v = 0
        · rw [if_pos hv, hv]
          exact Mem.read_below h.2 (by omega)
        · rw [if_neg hv]
          simp [Mem.read]
      · rename_i hne
        have : p.1 ≠ i := by omega
        simp only [Mem.read, this, if_false]
        exact ih h.2

/-- Both together, for a canonical space. -/
theorem Mem.read_write {m : Mem} (h : m.wf = true) (i j : Nat) (v : F64) :
    (m.write i v).read j = if j = i then v else m.read j := by
  split
  · rename_i hj
    rw [hj]
    exact Mem.read_write_same i v h
  · rename_i hj
    exact Mem.read_write_other m v hj

theorem Mem.wfFrom_write {m : Mem} {lo : Nat} {i : Nat} (v : F64) (hi : lo ≤ i) (h : m.wfFrom lo = true) :
    (m.write i v).wfFrom lo = true := by
  induction m generalizing lo with
  | nil => by_cases hv : v = 0#64 <;> simp [Mem.write, Mem.wfFrom, hv, hi]
  | cons p r ih =>
    have hw := h
    simp only [Mem.wfFrom, Bool.and_eq_true, decide_eq_true_eq] at h
    simp only [Mem.write]
    split
    · by_cases hv : v = 0
      · rw [if_pos hv]
        exact hw
      · simp only [hv, if_false, Mem.wfFrom, Bool.and_eq_true, decide_eq_true_eq]
        exact ⟨⟨hi, by simpa using hv⟩, ⟨by omega, h.1.2⟩, h.2⟩
    · split
      · rename_i heq
        by_cases hv : v = 0
        · rw [if_pos hv]
          exact Mem.wfFrom_mono (by omega) h.2
        · simp only [hv, if_false, Mem.wfFrom, Bool.and_eq_true, decide_eq_true_eq]
          exact ⟨⟨hi, by simpa using hv⟩, heq ▸ h.2⟩
      · simp only [Mem.wfFrom, Bool.and_eq_true, decide_eq_true_eq]
        exact ⟨h.1, ih (by omega) h.2⟩

/-- A write keeps the canonical form. -/
theorem Mem.wf_write {m : Mem} (i : Nat) (v : F64) (h : m.wf = true) : (m.write i v).wf = true :=
  Mem.wfFrom_write v (Nat.zero_le i) h

theorem Mem.below_iff {m : Mem} {n : Nat} : m.below n = true ↔ ∀ p ∈ m, p.1 < n := by
  simp [Mem.below]

/-- A write below `n` lists nothing at or past `n`. -/
theorem Mem.below_write {m : Mem} {n i : Nat} (v : F64) (hi : i < n) (h : m.below n = true) : (m.write i v).below n = true := by
  rw [Mem.below_iff] at h ⊢
  induction m with
  | nil =>
    by_cases hv : v = 0#64 <;> simp [Mem.write, hv, hi]
  | cons q r ih =>
    have hq := h q (by simp)
    have hr : ∀ p ∈ r, p.1 < n := fun p hp => h p (by simp [hp])
    simp only [Mem.write]
    split
    · by_cases hv : v = 0
      · rw [if_pos hv]
        exact h
      · rw [if_neg hv]
        simpa using ⟨hi, hq, fun a b hab => hr (a, b) hab⟩
    · split
      · by_cases hv : v = 0
        · rw [if_pos hv]
          exact hr
        · rw [if_neg hv]
          simpa using ⟨hi, fun a b hab => hr (a, b) hab⟩
      · intro p hp
        rcases List.mem_cons.mp hp with rfl | hp
        · exact hq
        · exact ih hr p hp

/-- The reset contents are canonical. -/
theorem Mem.wf_nil : Mem.wf [] = true := rfl

/-- `slice` is the list of the reads. -/
theorem Mem.slice_eq (m : Mem) (i n : Nat) : m.slice i n = (List.range n).map (fun j => m.read (i + j)) := by
  induction n generalizing i with
  | zero => rfl
  | succ n ih =>
    rw [Mem.slice, ih, List.range_succ_eq_map]
    simp [Nat.add_assoc, Nat.add_comm 1]

theorem shiftBuf_wf (h n i : Nat) (buf : Mem) (hb : buf.wf = true) : (shiftBuf h n i buf).wf = true := by
  induction n generalizing i buf with
  | zero => exact hb
  | succ n ih => exact ih (i + 1) _ (Mem.wf_write i _ hb)

theorem shiftBuf_below (h n i m : Nat) (buf : Mem) (hm : i + n ≤ m) (hb : buf.below m = true) :
    (shiftBuf h n i buf).below m = true := by
  induction n generalizing i buf with
  | zero => exact hb
  | succ n ih => exact ih (i + 1) _ (by omega) (Mem.below_write _ (by omega) hb)

/-- The inner loop of the shift from index `i`: the next `n` elements take what stood `h` places later. -/
theorem shiftBuf_read (h n i : Nat) (buf : Mem) (hb : buf.wf = true) (hh : 0 < h) (j : Nat) :
    (shiftBuf h n i buf).read j = if i ≤ j ∧ j < i + n then buf.read (j + h) else buf.read j := by
  induction n generalizing i buf with
  | zero => simp [shiftBuf]
  | succ n ih =>
    rw [shiftBuf, ih (i + 1) _ (Mem.wf_write i _ hb), Mem.read_write hb, Mem.read_write hb]
    by_cases hj : j = i
    · subst hj
      simp
    · by_cases h2 : i + 1 ≤ j ∧ j < i + 1 + n
      · have h3 : i ≤ j ∧ j < i + (n + 1) := by omega
        have h4 : ¬ j + h = i := by omega
        simp [h2, h3, h4]
      · have h3 : ¬ (i ≤ j ∧ j < i + (n + 1)) := by omega
        rw [if_neg h2, if_neg h3, if_neg hj]

end Sys2Proof.Machine
end

