-- ==== Sys2Proof/Laws/Accumulator.lean ====
section
/-! SUPPORT. The shared operations of the loudness side, each said once: the parameters of an instance, what a `PUSH` can do to
the state and to each channel, the two sums as folds, and where the free values of a cascade cannot show. -/

namespace Sys2Proof.Machine

/-! ### Parameters -/

/-- The bounds of R8 that the counters rest on. -/
theorem valid_bounds {c : Config} (h : c.valid = true) :
    10 ≤ c.fs ∧ 1 ≤ c.nch ∧ c.nch ≤ 256 ∧ 4 ≤ c.bufLen ∧ c.bufLen < 2 ^ 32 ∧ c.w.length = c.nch ∧ 1 ≤ c.tpNch ∧
      c.tpCap < 2 ^ 32 := by
  simp only [Config.valid, Bool.and_eq_true, decide_eq_true_eq, beq_iff_eq] at h
  omega

/-- In mode BLOCK the hop is positive and shorter than the buffer (R8). -/
theorem hop_bounds {c : Config} (h : c.valid = true) (hm : c.mode = .block) :
    c.retained < c.bufLen ∧ 0 < c.hop ∧ c.hop < c.bufLen := by
  have := valid_bounds h
  simp only [Config.retained, Config.hop, Config.bufLen, hm] at this ⊢
  omega

/-- The cursor's increment does not overflow (R204 (1)). -/
theorem State.Shaped.wp_succ {s : State} (h : s.Shaped) : (s.wp + 1).toNat = s.wp.toNat + 1 := by
  have := h.cursor
  have := valid_bounds h.valid
  rw [BitVec.toNat_add]
  simp
  omega

/-! ### Channels -/

/-- A property of every channel survives the update of one that keeps it. -/
theorem forall_modify {l : List Channel} {c : Nat} {f : Channel → Channel} {Q : Channel → Prop} (h : ∀ k ∈ l, Q k)
    (hf : ∀ k ∈ l, Q (f k)) : ∀ k ∈ l.modify c f, Q k := by
  intro k hk
  obtain ⟨i, hi, rfl⟩ := List.mem_iff_getElem.mp hk
  simp only [List.length_modify] at hi
  rw [List.getElem_modify]
  split
  · exact hf _ (List.getElem_mem hi)
  · exact h _ (List.getElem_mem hi)

/-- A channel after a map that fixes the reset channel. -/
theorem chan_map_all {s t : State} {g : Channel → Channel} (h : t.chans = s.chans.map g) (hg : g Channel.reset = Channel.reset)
    (e : Nat) : t.chan e = g (s.chan e) := by
  by_cases he : e < s.chans.length
  · exact chan_map h he
  · rw [State.chan_of_le _ _ (by rw [h]; simpa using he), State.chan_of_le _ _ (by simpa using he), hg]

/-- An update that leaves `pushed` does not change whether the frame is full. -/
theorem State.frameFull_updChan {s : State} {c : Nat} {f : Channel → Channel} (hf : ∀ k, (f k).pushed = k.pushed) :
    (s.updChan c f).frameFull = s.frameFull := by
  have : ∀ (l : List Channel) (c : Nat), (l.modify c f).all (·.pushed) = l.all (·.pushed) := by
    intro l
    induction l with
    | nil => intro c; cases c <;> rfl
    | cons k l ih =>
      intro c
      cases c with
      | zero => simp [List.modify_cons, hf]
      | succ c => simp [ih]
  exact this _ _

/-- After the sample of channel `c` is stored the frame is full exactly where every other channel had its sample. -/
theorem State.storeSample_full {s : State} {c : Nat} {x : F64} (h : c < s.chans.length) :
    (s.storeSample c x).frameFull = true ↔ ∀ e, e < s.chans.length → e ≠ c → (s.chan e).pushed = true := by
  unfold State.frameFull
  rw [List.all_eq_true]
  constructor
  · intro h1 e he hec
    have := h1 ((s.storeSample c x).chan e) (State.chan_mem _ _ (by simpa [State.storeSample] using he))
    rwa [State.storeSample, State.chan_updChan_other _ _ _ hec] at this
  · intro h1 k hk
    obtain ⟨e, he, rfl⟩ := State.exists_chan_of_mem _ hk
    have he' : e < s.chans.length := by simpa [State.storeSample] using he
    by_cases hec : e = c
    · subst hec
      rw [State.storeSample, State.chan_updChan_same _ _ _ he']
    · rw [State.storeSample, State.chan_updChan_other _ _ _ hec]
      exact h1 e he' hec

/-! ### The frame commit -/

/-- The three things a frame commit can do (R132, R135). -/
theorem State.frameCommit_cases (s : State) :
    ((s.wp + 1).toNat ≠ s.cfg.bufLen ∧
      s.frameCommit = { s with chans := s.chans.map (fun k => { k with pushed := false }), wp := s.wp + 1 }) ∨
    ((s.wp + 1).toNat = s.cfg.bufLen ∧ s.cfg.mode = .circ ∧
      s.frameCommit = { s with chans := s.chans.map (fun k => { k with pushed := false }), wp := 0 }) ∨
    ((s.wp + 1).toNat = s.cfg.bufLen ∧ s.cfg.mode = .block ∧ s.frameCommit =
      State.blockComplete { s with chans := s.chans.map (fun k => { k with pushed := false }), wp := s.wp + 1 }) := by
  unfold State.frameCommit
  dsimp only
  split
  · rename_i h
    cases hm : s.cfg.mode
    · exact .inr (.inr ⟨h, rfl, rfl⟩)
    · exact .inr (.inl ⟨h, rfl, rfl⟩)
  · rename_i h
    exact .inl ⟨h, rfl⟩

/-- What a completed block does to the channels (R133, R134). -/
theorem State.blockComplete_chans (s : State) : s.blockComplete.chans = s.chans.mapIdx (fun c k => { k with
    blkMs := meanSquare s.draws (meanSite s.cfg.bufLen c) s.cfg.bufLen k.buf
    buf := shiftBuf s.cfg.hop s.cfg.retained 0 k.buf }) := by
  apply List.ext_getElem
  · simp [State.blockComplete, State.shiftBuffers, State.latchMeans]
  · intro i h1 h2
    simp [State.blockComplete, State.shiftBuffers, State.latchMeans]

/-- What no `PUSH` changes. -/
theorem pushed_stays (s : State) (ch : BitVec 8) (x : BitVec 64) :
    (pushed s ch x).cfg = s.cfg ∧ (pushed s ch x).draws = s.draws ∧ (pushed s ch x).rsps = s.rsps ∧
      SamePorts s (pushed s ch x) ∧ SameFault s (pushed s ch x) ∧ SameTruePeak s (pushed s ch x) := by
  have all : ∀ t : State, t.cfg = s.cfg → t.draws = s.draws → t.rsps = s.rsps → SamePorts s t → SameFault s t →
      SameTruePeak s t → t.cfg = s.cfg ∧ t.draws = s.draws ∧ t.rsps = s.rsps ∧ SamePorts s t ∧ SameFault s t ∧
        SameTruePeak s t := fun t a b c d e f => ⟨a, b, c, d, e, f⟩
  unfold pushed
  split
  · rcases State.frameCommit_cases (s.storeSample ch.toNat x) with ⟨-, e⟩ | ⟨-, -, e⟩ | ⟨-, -, e⟩ <;> rw [e] <;>
      exact all _ rfl rfl rfl ⟨rfl, rfl, rfl, rfl⟩ ⟨rfl, rfl, rfl⟩ ⟨rfl, rfl, rfl, rfl⟩
  · exact all _ rfl rfl rfl ⟨rfl, rfl, rfl, rfl⟩ ⟨rfl, rfl, rfl⟩ ⟨rfl, rfl, rfl, rfl⟩

/-- A property of every channel survives a `PUSH` if it survives storing a sample, clearing `pushed`, and a completed block. -/
theorem pushed_forall {Q : Channel → Prop} (s : State) (ch : BitVec 8) (x : BitVec 64) (h : ∀ k ∈ s.chans, Q k)
    (store : ∀ k, Q k → Q { (cascade s.draws s.cfg k x).1 with
      buf := (cascade s.draws s.cfg k x).1.buf.write s.wp.toNat (cascade s.draws s.cfg k x).2, pushed := true })
    (clear : ∀ k, Q k → Q { k with pushed := false })
    (complete : ∀ k v, Q k → s.cfg.mode = .block → (s.wp + 1).toNat = s.cfg.bufLen →
      Q { k with blkMs := v, buf := shiftBuf s.cfg.hop s.cfg.retained 0 k.buf }) :
    ∀ k ∈ (pushed s ch x).chans, Q k := by
  have stored : ∀ k ∈ (s.storeSample ch.toNat x).chans, Q k := forall_modify h (fun k hk => store k (h k hk))
  have opened : ∀ k ∈ (s.storeSample ch.toNat x).chans.map (fun k => { k with pushed := false }), Q k := by
    intro k hk
    obtain ⟨k0, hk0, rfl⟩ := List.mem_map.mp hk
    exact clear k0 (stored k0 hk0)
  unfold pushed
  split
  · rcases State.frameCommit_cases (s.storeSample ch.toNat x) with ⟨_, e⟩ | ⟨_, _, e⟩ | ⟨hw, hm, e⟩ <;> rw [e]
    · exact opened
    · exact opened
    · rw [State.blockComplete_chans]
      intro k hk
      simp only [List.mem_mapIdx] at hk
      obtain ⟨i, hi, rfl⟩ := hk
      exact complete _ _ (opened _ (List.getElem_mem hi)) hm hw
  · exact stored

/-! ### The two sums -/

/-- The sum of squares as a fold over the indices (R136). -/
theorem sumSquares_eq (d base : Nat) (buf : Mem) (n i : Nat) (acc : F64) :
    sumSquares d base buf n i acc = (List.range n).foldl (fun acc j => fadd d (base + 2 * (i + j) + 1) acc
      (fmul d (base + 2 * (i + j)) (buf.read (i + j)) (buf.read (i + j)))) acc := by
  induction n generalizing i acc with
  | zero => rfl
  | succ n ih =>
    rw [sumSquares, ih, List.range_succ_eq_map, List.foldl_cons, List.foldl_map]
    have : ∀ j, i + 1 + j = i + (j + 1) := fun j => by omega
    simp only [this, Nat.add_zero]

/-- The weighted sum as a fold over the channels (R137). -/
theorem weightedSum_eq (d n base : Nat) (acc : F64) (ws ms : List F64) (hw : ws.length = n) (hm : ms.length = n) :
    weightedSum d base acc ws ms = (List.range n).foldl (fun acc e => fadd d (base + 2 * e + 1) acc
      (fmul d (base + 2 * e) (ws.getD e 0) (ms.getD e 0))) acc := by
  induction n generalizing base acc ws ms with
  | zero =>
    rw [List.length_eq_zero_iff] at hw hm
    subst hw hm
    rfl
  | succ n ih =>
    obtain ⟨w, ws, rfl⟩ := List.exists_cons_of_length_eq_add_one hw
    obtain ⟨m, ms, rfl⟩ := List.exists_cons_of_length_eq_add_one hm
    rw [weightedSum, ih _ _ _ _ (by simpa using hw) (by simpa using hm), List.range_succ_eq_map, List.foldl_cons,
      List.foldl_map]
    have e : ∀ j, base + 2 + 2 * j = base + 2 * (j + 1) := fun j => by omega
    simp only [e, List.getD_cons_succ, List.getD_cons_zero, Nat.mul_zero, Nat.add_zero]

theorem State.meanSquares_getD {s : State} {e : Nat} (he : e < s.chans.length) :
    s.meanSquares.getD e 0 = meanSquare s.draws (meanSite s.cfg.bufLen e) s.cfg.bufLen (s.chan e).buf := by
  rw [State.chan_of_lt _ _ he]
  simp [State.meanSquares, he]

/-- Two folds over the same indices whose steps agree there. -/
theorem foldl_range_congr {α : Type} {f g : α → Nat → α} {n : Nat} (h : ∀ acc e, e < n → f acc e = g acc e) (acc : α) :
    (List.range n).foldl f acc = (List.range n).foldl g acc := by
  have : ∀ (l : List Nat), (∀ e ∈ l, e < n) → ∀ acc, l.foldl f acc = l.foldl g acc := by
    intro l
    induction l with
    | nil => intro _ _; rfl
    | cons a l ih =>
      intro hl acc
      rw [List.foldl_cons, List.foldl_cons, h _ _ (hl a (by simp)), ih (fun e he => hl e (by simp [he]))]
  exact this _ (by simp) acc

/-! ### Free values that cannot show -/

/-- Where none of a stage's operations gives a NaN, its result does not depend on the numbers of the free values. -/
theorem stage_draw {d d' k k' : Nat} {co : Coef} {p l x : F64}
    (h : (stageValues d k co p l x).all (fun a => !isNan a) = true) : stage d' k' co p l x = stage d k co p l x := by
  simp only [stageValues, List.all_cons, List.all_nil, Bool.and_true, Bool.and_eq_true, Bool.not_eq_true'] at h
  obtain ⟨h1, h2, h3, h4, h5, h6, h7, h8, h9⟩ := h
  unfold stage
  dsimp only
  rw [fmul_draw (d' := d') (k' := k') h1, fsub_draw (d' := d') (k' := k' + 1) h2,
    fmul_draw (d' := d') (k' := k' + 2) h3, fsub_draw (d' := d') (k' := k' + 3) h4,
    fmul_draw (d' := d') (k' := k' + 4) h5, fmul_draw (d' := d') (k' := k' + 5) h6,
    fadd_draw (d' := d') (k' := k' + 6) h7, fmul_draw (d' := d') (k' := k' + 7) h8,
    fadd_draw (d' := d') (k' := k' + 8) h9]

/-- The same for the cascade. -/
theorem cascade_draw {d d' : Nat} {c : Config} {k : Channel} {x : F64} (h : numericCascade d c k x = true) :
    cascade d' c k x = cascade d c k x := by
  simp only [numericCascade, Bool.and_eq_true] at h
  unfold cascade
  dsimp only
  rw [stage_draw (d' := d') (k' := 0) h.1, stage_draw (d' := d') (k' := 9) h.2]

end Sys2Proof.Machine
end

