-- ==== Sys2Proof/Laws/Encode.lean ====
section
/-! SUPPORT. The fields of a word and the word of three fields, and what the opcode map and the serialised form do. -/

namespace Sys2Proof

/-- The three fields of a word put together from them (R70). -/
theorem fields_append (a b : BitVec 8) (c : BitVec 64) :
    opField (a ++ b ++ c) = a ∧ chField (a ++ b ++ c) = b ∧ dataField (a ++ b ++ c) = c := by
  have h : ∀ k, (a ++ b ++ c : BitVec (8 + 8 + 64)).getLsbD k =
      if k < 64 then c.getLsbD k else if k - 64 < 8 then b.getLsbD (k - 64) else a.getLsbD (k - 64 - 8) := fun k => by
    rw [BitVec.getLsbD_append, BitVec.getLsbD_append]
  refine ⟨?_, ?_, ?_⟩ <;> apply BitVec.eq_of_getLsbD_eq <;> intro k hk
  · rw [opField, BitVec.getLsbD_extractLsb', decide_eq_true hk, Bool.true_and, h, if_neg (by omega), if_neg (by omega)]
    congr 1
    omega
  · rw [chField, BitVec.getLsbD_extractLsb', decide_eq_true hk, Bool.true_and, h, if_neg (by omega), if_pos (by omega)]
    congr 1
    omega
  · rw [dataField, BitVec.getLsbD_extractLsb', decide_eq_true hk, Bool.true_and, h, if_pos (by omega)]
    congr 1
    omega

/-- The fields of a word, put together again, are the word (R70). -/
theorem append_fields (w : CmdWord) : opField w ++ chField w ++ dataField w = w := by
  apply BitVec.eq_of_getLsbD_eq
  intro k hk
  simp only [opField, chField, dataField, BitVec.getLsbD_append, BitVec.getLsbD_extractLsb']
  split
  · simp [*]
  · split
    · rename_i h1 h2
      rw [show 64 + (k - 64) = k by omega]
      simp [h2]
    · rename_i h1 h2
      rw [show 72 + (k - 64 - 8) = k by omega]
      simp
      omega

/-- The fields of an encoded command. -/
theorem fields_encode (i : Instr) :
    opField (encode i) = i.opcode ∧ chField (encode i) = i.ch ∧ dataField (encode i) = i.data :=
  fields_append i.opcode i.ch i.data

/-- The opcode map of R74 is injective: the constructor it gives has the opcode it was given. -/
theorem instrOf_some {op ch : BitVec 8} {data : BitVec 64} {i : Instr} (h : instrOf op ch data = some i) :
    i.opcode = op ∧ i.ch = ch ∧ i.data = data := by
  unfold instrOf at h
  split at h <;> simp at h <;> subst h <;> refine ⟨?_, rfl, rfl⟩ <;> apply BitVec.eq_of_toNat_eq <;>
    simp [Instr.opcode, *]

/-- Ten bytes of a word put together again are the word (R54). -/
theorem wordOfBytes_wordBytes (w : CmdWord) : ∃ b0 b1 b2 b3 b4 b5 b6 b7 b8 b9,
    wordBytes w = [b0, b1, b2, b3, b4, b5, b6, b7, b8, b9] ∧ wordOfBytes b0 b1 b2 b3 b4 b5 b6 b7 b8 b9 = w := by
  refine ⟨_, _, _, _, _, _, _, _, _, _, rfl, ?_⟩
  apply BitVec.eq_of_getLsbD_eq
  intro k hk
  simp only [wordOfBytes, BitVec.getLsbD_append, BitVec.getLsbD_extractLsb']
  split_ifs <;> (rw [decide_eq_true (by omega), Bool.true_and]; congr 1; omega)

end Sys2Proof
end

