-- ==== Sys2Proof/Laws/PerInstr.lean ====
section
/-! SUPPORT. The family `Fields`: for every command, what the three fields of its word are (R70, R74). -/

namespace Sys2Proof.Laws.Fields

/-- The command's word carries its opcode, its `CH` and its `DATA` in their places, and its opcode selects it (R70, R74). -/
def Statement (i : Instr) : Prop :=
  opField (encode i) = i.opcode ∧ chField (encode i) = i.ch ∧ dataField (encode i) = i.data ∧
    instrOf i.opcode i.ch i.data = some i

theorem of_map {i : Instr} (h : instrOf i.opcode i.ch i.data = some i) : Statement i :=
  ⟨(fields_encode i).1, (fields_encode i).2.1, (fields_encode i).2.2, h⟩

theorem nop (ch : BitVec 8) (data : BitVec 64) : Statement (.nop ch data) := of_map rfl
theorem frst (ch : BitVec 8) (data : BitVec 64) : Statement (.frst ch data) := of_map rfl
theorem fproc (ch : BitVec 8) (data : BitVec 64) : Statement (.fproc ch data) := of_map rfl
theorem rdfs (ch : BitVec 8) (data : BitVec 64) : Statement (.rdfs ch data) := of_map rfl
theorem push (ch : BitVec 8) (data : BitVec 64) : Statement (.push ch data) := of_map rfl
theorem msq (ch : BitVec 8) (data : BitVec 64) : Statement (.msq ch data) := of_map rfl
theorem wsum (ch : BitVec 8) (data : BitVec 64) : Statement (.wsum ch data) := of_map rfl
theorem rdblk (ch : BitVec 8) (data : BitVec 64) : Statement (.rdblk ch data) := of_map rfl
theorem rdblke (ch : BitVec 8) (data : BitVec 64) : Statement (.rdblke ch data) := of_map rfl
theorem blkack (ch : BitVec 8) (data : BitVec 64) : Statement (.blkack ch data) := of_map rfl
theorem crst (ch : BitVec 8) (data : BitVec 64) : Statement (.crst ch data) := of_map rfl
theorem mrst (ch : BitVec 8) (data : BitVec 64) : Statement (.mrst ch data) := of_map rfl
theorem rdbuf (ch : BitVec 8) (data : BitVec 64) : Statement (.rdbuf ch data) := of_map rfl
theorem rdw (ch : BitVec 8) (data : BitVec 64) : Statement (.rdw ch data) := of_map rfl
theorem tpin (ch : BitVec 8) (data : BitVec 64) : Statement (.tpin ch data) := of_map rfl
theorem tprun (ch : BitVec 8) (data : BitVec 64) : Statement (.tprun ch data) := of_map rfl
theorem tprd (ch : BitVec 8) (data : BitVec 64) : Statement (.tprd ch data) := of_map rfl
theorem tprst (ch : BitVec 8) (data : BitVec 64) : Statement (.tprst ch data) := of_map rfl
theorem rdreg (ch : BitVec 8) (data : BitVec 64) : Statement (.rdreg ch data) := of_map rfl

end Sys2Proof.Laws.Fields
end

