-- ==== Sys2Proof/Laws/TruePeak.lean ====
section
/-! SUPPORT. The scan of the resampler's answer, and that cutting an answer to the contract changes only answers that break it. -/

namespace Sys2Proof.Machine

/-- One output sample replaces the maximum only by something larger that is no NaN (R173). -/
theorem peak_step (a gain : F64) (h : isNan gain = false) :
    isNan (if fgt a gain then a else gain) = false ∧ order gain ≤ order (if fgt a gain then a else gain) ∧
      (isNan a = false → order a ≤ order (if fgt a gain then a else gain)) := by
  split
  · rename_i h'
    obtain ⟨h1, -, h3⟩ := fgt_iff.mp h'
    exact ⟨h1, h3.le, fun _ => le_refl _⟩
  · rename_i h'
    refine ⟨h, le_refl _, fun hn => ?_⟩
    by_contra hlt
    exact h' (fgt_iff.mpr ⟨hn, h, by omega⟩)

/-- The scan keeps the maximum no NaN with sign bit 0, and never lowers it. -/
theorem peakScan_legal (d : Nat) (g : F64) (out : List F64) (j : Nat) (gain : F64) (hn : isNan gain = false)
    (hs : sign gain = false) : isNan (peakScan d g j gain out) = false ∧ sign (peakScan d g j gain out) = false ∧
      order gain ≤ order (peakScan d g j gain out) := by
  induction out generalizing j gain with
  | nil => exact ⟨hn, hs, le_refl _⟩
  | cons x rest ih =>
    have h := peak_step (fabs (fmul d j x g)) gain hn
    have hs' : sign (if fgt (fabs (fmul d j x g)) gain then fabs (fmul d j x g) else gain) = false := by
      split
      · exact sign_fabs _
      · exact hs
    obtain ⟨a, b, c⟩ := ih (j + 1) _ h.1 hs'
    exact ⟨a, b, le_trans h.2.1 c⟩

/-- A cut answer keeps the contract of R176. -/
theorem cutReply_conforms (c : Config) (f : Nat) (r : Reply) : replyConforms c f (cutReply c f r) = true := by
  unfold replyConforms
  rw [Bool.and_eq_true, Bool.and_eq_true]
  refine ⟨⟨decide_eq_true (Nat.min_le_right _ _),
    decide_eq_true ((Nat.min_le_left _ _).trans (Nat.min_le_right _ _))⟩, beq_iff_eq.mpr ?_⟩
  simp only [cutReply, List.length_take]
  refine Nat.min_eq_left ?_
  calc _ ≤ (r.out.length / c.tpNch) * c.tpNch := Nat.mul_le_mul_right _ (Nat.min_le_right _ _)
    _ ≤ _ := Nat.div_mul_le_self _ _

/-- An answer that keeps the contract is left as it is, so every such answer stays possible (R177). -/
theorem cutReply_of_conforms {c : Config} (hv : c.valid = true) {f : Nat} {r : Reply} (h : replyConforms c f r = true) :
    cutReply c f r = r := by
  have := (valid_bounds hv).2.2.2.2.2.2.1
  unfold replyConforms at h
  rw [Bool.and_eq_true, Bool.and_eq_true, decide_eq_true_eq, decide_eq_true_eq, beq_iff_eq] at h
  obtain ⟨⟨h1, h2⟩, h3⟩ := h
  have hd : r.out.length / c.tpNch = r.gen := by rw [h3]; exact Nat.mul_div_cancel _ (by omega)
  unfold cutReply
  simp only [hd, Nat.min_eq_left h1, Nat.min_eq_left h2, Nat.min_self, ← h3, List.take_length]

end Sys2Proof.Machine
end

