-- ==== Sys2Proof/Machine/Assembler.lean ====
section
/-! DEFINITION. The assembler line of R79, read from its characters. -/

namespace Sys2Proof.Machine

/-- The value of a digit is its place in the list of the digits. -/
def digitIn (digits : List Char) (c : Char) : Option Nat := digits.idxOf? c

/-- The value of a decimal digit. -/
def decDigit (c : Char) : Option Nat := digitIn ['0', '1', '2', '3', '4', '5', '6', '7', '8', '9'] c

/-- The value of a hexadecimal digit: one of the ten decimal ones, or 10 and the place of a letter, of either case (log entry
21). -/
def hexDigit (c : Char) : Option Nat :=
  let letter := digitIn ['A', 'B', 'C', 'D', 'E', 'F'] c <|> digitIn ['a', 'b', 'c', 'd', 'e', 'f'] c
  decDigit c <|> letter.map (10 + ·)

/-- A numeral in the given base, most significant digit first; every character must be a digit. -/
def numeralFrom (digit : Char → Option Nat) (base : Nat) : Nat → List Char → Option Nat
  | acc, [] => some acc
  | acc, c :: cs => (digit c).bind (fun v => numeralFrom digit base (acc * base + v) cs)

/-- A numeral with at least one digit. -/
def numeral (digit : Char → Option Nat) (base : Nat) (cs : List Char) : Option Nat :=
  if cs.isEmpty then none else numeralFrom digit base 0 cs

/-- An unsigned integer, decimal or `0x` hexadecimal (R79), below `bound`. -/
def parseInt (bound : Nat) (cs : List Char) : Option Nat :=
  let v := match cs with
    | '0' :: 'x' :: hs => numeral hexDigit 16 hs
    | ds => numeral decDigit 10 ds
  v.bind (fun n => if n < bound then some n else none)

/-- The characters before the first one that `stop` accepts, and those after it if there is one. -/
def cut (stop : Char → Bool) : List Char → List Char × Option (List Char)
  | [] => ([], none)
  | c :: cs => if stop c then ([], some cs) else (c :: (cut stop cs).1, (cut stop cs).2)

/-- A decimal exponent with an optional sign. -/
def parseExp (cs : List Char) : Option Int :=
  match cs with
  | '-' :: ds => (numeral decDigit 10 ds).map (fun n => -(n : Int))
  | '+' :: ds => (numeral decDigit 10 ds).map (fun n => (n : Int))
  | ds => (numeral decDigit 10 ds).map (fun n => (n : Int))

/-- An unsigned decimal literal, `digits[.digits][e[±]digits]`: its digits as one integer and the power of ten. -/
def parseDecimal (cs : List Char) : Option (Nat × Int) :=
  let (mant, expo) := cut (fun c => c == 'e' || c == 'E') cs
  let (whole, frac) := cut (· == '.') mant
  let fs := frac.getD []
  (numeral decDigit 10 (whole ++ fs)).bind (fun m =>
    match expo with
    | none => some (m, -(fs.length : Int))
    | some es => (parseExp es).map (fun e => (m, e - fs.length)))

/-- A sample operand (R79): `0x` and exactly 16 hexadecimal digits is that pattern; a decimal literal is the binary64 value
nearest to it, ties to even. -/
def parseSample (cs : List Char) : Option F64 :=
  match cs with
  | '0' :: 'x' :: hs => if hs.length = 16 then (numeral hexDigit 16 hs).map (BitVec.ofNat 64) else none
  | '-' :: ds => (parseDecimal ds).map (fun p => decimal true p.1 p.2)
  | ds => (parseDecimal ds).map (fun p => decimal false p.1 p.2)

def isBlank (c : Char) : Bool := c == ' ' || c == '\t'

/-- Without blanks at either end. -/
def trim (cs : List Char) : List Char := ((cs.dropWhile isBlank).reverse.dropWhile isBlank).reverse

/-- The operands between commas, trimmed; no operand at all where nothing stands after the mnemonic. -/
def operandsFrom : List Char → List Char → List (List Char)
  | acc, [] => [trim acc.reverse]
  | acc, c :: cs => if c = ',' then trim acc.reverse :: operandsFrom [] cs else operandsFrom (c :: acc) cs

/-- A channel number or register index: an unsigned integer that the 8-bit `CH` field can hold. -/
def parseCh (cs : List Char) : Option (BitVec 8) := (parseInt 256 cs).map (BitVec.ofNat 8)

/-- An index operand: an unsigned integer that the 64-bit `DATA` field can hold. -/
def parseIndex (cs : List Char) : Option (BitVec 64) := (parseInt (2 ^ 64) cs).map (BitVec.ofNat 64)

/-- The command of a mnemonic and its operands, as in the mnemonic column of R74. -/
def parseCommand (mnemonic : List Char) (ops : List (List Char)) : Option Instr :=
  match mnemonic, ops with
  | ['N', 'O', 'P'], [] => some (.nop 0 0)
  | ['F', 'R', 'S', 'T'], [c] => (parseCh c).map (fun ch => .frst ch 0)
  | ['F', 'P', 'R', 'O', 'C'], [c, x] => (parseCh c).bind (fun ch => (parseSample x).map (fun v => .fproc ch v))
  | ['R', 'D', 'F', 'S'], [c, i] => (parseCh c).bind (fun ch => (parseIndex i).map (fun v => .rdfs ch v))
  | ['P', 'U', 'S', 'H'], [c, x] => (parseCh c).bind (fun ch => (parseSample x).map (fun v => .push ch v))
  | ['M', 'S', 'Q'], [c] => (parseCh c).map (fun ch => .msq ch 0)
  | ['W', 'S', 'U', 'M'], [] => some (.wsum 0 0)
  | ['R', 'D', 'B', 'L', 'K'], [c] => (parseCh c).map (fun ch => .rdblk ch 0)
  | ['R', 'D', 'B', 'L', 'K', 'E'], [] => some (.rdblke 0 0)
  | ['B', 'L', 'K', 'A', 'C', 'K'], [] => some (.blkack 0 0)
  | ['C', 'R', 'S', 'T'], [c] => (parseCh c).map (fun ch => .crst ch 0)
  | ['M', 'R', 'S', 'T'], [] => some (.mrst 0 0)
  | ['R', 'D', 'B', 'U', 'F'], [c, i] => (parseCh c).bind (fun ch => (parseIndex i).map (fun v => .rdbuf ch v))
  | ['R', 'D', 'W'], [c] => (parseCh c).map (fun ch => .rdw ch 0)
  | ['T', 'P', 'I', 'N'], [x] => (parseSample x).map (fun v => .tpin 0 v)
  | ['T', 'P', 'R', 'U', 'N'], [] => some (.tprun 0 0)
  | ['T', 'P', 'R', 'D'], [] => some (.tprd 0 0)
  | ['T', 'P', 'R', 'S', 'T'], [] => some (.tprst 0 0)
  | ['R', 'D', 'R', 'E', 'G'], [c] => (parseCh c).map (fun ch => .rdreg ch 0)
  | _, _ => none

/-- One line (R79): what stands after `;` is a comment; a line with nothing else gives no command; `none` is a line that is
no command. -/
def assembleLine (line : List Char) : Option (List Instr) :=
  let body := trim (cut (· == ';') line).1
  match cut isBlank body with
  | ([], _) => some []
  | (m, none) => (parseCommand m []).map (fun i => [i])
  | (m, some rest) => (parseCommand m (operandsFrom [] rest)).map (fun i => [i])

end Sys2Proof.Machine
end

