-- ==== Sys2Proof/Tests/Slice0.lean ====
section
/-! SUPPORT. Tests. Expected values are those of spec/95_test_vectors.md (named V1 to V65, P1 to P6) or of the rule cited, never
the model's own answers. The second half holds one witness for every statement that has hypotheses. -/

namespace Sys2Proof.Tests

open Sys2Proof.Machine

/-! ### Small machines (95_test_vectors.md section 0) -/

def one : F64 := 0x3FF0000000000000
def two : F64 := 0x4000000000000000
def quietNan : F64 := 0x7FF8000000000000
def plusInf : F64 := 0x7FF0000000000000
def minusInf : F64 := 0xFFF0000000000000
def minusZero : F64 := 0x8000000000000000

/-- Coefficient set ID. -/
def ident : Coef := { a1 := 0, a2 := 0, b0 := one, b1 := 0, b2 := 0 }

/-- Configuration X1 (`N = 8`, `H = 2`). -/
def x1 : Config := { Config.xd with fs := 20, nch := 1, w := [one], coef1 := ident, coef2 := ident }

/-- Configuration X2 (`N = 4`, `H = 1`, weights 1.0 and 1.41). -/
def x2 : Config := { Config.xd with fs := 10, nch := 2, w := [one, weightSurround], coef1 := ident, coef2 := ident }

/-- Configuration X3 (mode CIRC, `N = 4`). -/
def x3 : Config := { x1 with fs := 10, mode := .circ, winMs := 400 }

/-- Configuration XT: coefficient set T. -/
def xt : Config := { Config.xd with
  fs := 20
  coef1 := { a1 := 0xBFE0000000000000, a2 := 0x3FD0000000000000, b0 := one, b1 := 0x3FE0000000000000, b2 := 0x3FD0000000000000 }
  coef2 := { a1 := 0, a2 := 0, b0 := one, b1 := 0xBFF0000000000000, b2 := 0 } }

/-- Configuration TP2 (two true-peak channels, two frames). -/
def tp2 : Config := { Config.xd with nch := 1, w := [one], tpNch := 2, tpMaxbuf := 2, tpOcap := 8 }

/-- The instance with these parameters, out of reset. -/
def fresh (c : Config) : State := State.resetOf c

/-- A channel with these filter registers and buffer. -/
def chan (prev1 last1 prev2 last2 : F64) (buf : Mem) : Channel :=
  { Channel.reset with prev1 := prev1, last1 := last1, prev2 := prev2, last2 := last2, buf := buf }

/-- The command word is presented to `s`: the response it gives. -/
def ask (s : State) (w : CmdWord) : Option RspWord :=
  match step { s with port := [.cmd w] } with
  | .next t => t.rsps.getLast?
  | .fault _ => none
  | .refused _ => none

/-- The state it leaves (`s` where it stops). -/
def leaves (s : State) (w : CmdWord) : State :=
  match step { s with port := [.cmd w] } with
  | .next t => t
  | .fault _ => s
  | .refused _ => s

def isNext : Result → Bool
  | .next _ => true
  | .fault _ => false
  | .refused _ => false

theorem next_of {r : Result} (h : isNext r = true) : ∃ t, r = .next t := by
  cases r with
  | next t => exact ⟨t, rfl⟩
  | fault _ => cases h
  | refused _ => cases h

/-! ### Well-formed commands: an ill-formed term for each check -/

theorem test_wf_accepts : (Instr.rdfs 1 3).wellFormed = true ∧ (Instr.push 1 quietNan).wellFormed = true := by decide
theorem test_wf_ch_must_be_zero : (Instr.nop 1 0).wellFormed = false ∧ (Instr.tpin 1 one).wellFormed = false := by decide
theorem test_wf_data_must_be_zero : (Instr.frst 0 1).wellFormed = false ∧ (Instr.rdreg 0 1).wellFormed = false := by decide
theorem test_wf_selector : (Instr.rdfs 1 4).wellFormed = false := by decide
theorem test_wf_register_index : (Instr.rdreg 0x07 0).wellFormed = false ∧ (Instr.rdreg 0x31 0).wellFormed = true := by decide

/-! ### Encoding (V1), one word per constructor, written out from R70 and R74 -/

theorem test_decode_system : decode 0x00000000000000000000 = .ok (.nop 0 0) ∧
    decode 0x30130000000000000000 = .ok (.rdreg 0x13 0) := by decide
theorem test_decode_filter : decode 0x01020000000000000000 = .ok (.frst 2 0) ∧
    decode 0x02003FF0000000000000 = .ok (.fproc 0 one) ∧ decode 0x03010000000000000003 = .ok (.rdfs 1 3) := by decide
theorem test_decode_push : decode 0x10013FF0000000000000 = .ok (.push 1 one) ∧
    decode 0x1000BFE0000000000000 = .ok (.push 0 0xBFE0000000000000) := by decide
theorem test_decode_energy : decode 0x11030000000000000000 = .ok (.msq 3 0) ∧ decode 0x12000000000000000000 = .ok (.wsum 0 0) ∧
    decode 0x13FF0000000000000000 = .ok (.rdblk 255 0) ∧ decode 0x14000000000000000000 = .ok (.rdblke 0 0) := by decide
theorem test_decode_accumulator : decode 0x15000000000000000000 = .ok (.blkack 0 0) ∧
    decode 0x16010000000000000000 = .ok (.crst 1 0) ∧ decode 0x17000000000000000000 = .ok (.mrst 0 0) ∧
    decode 0x18000000000000004AFF = .ok (.rdbuf 0 19199) ∧ decode 0x19040000000000000000 = .ok (.rdw 4 0) := by decide
theorem test_decode_true_peak : decode 0x20003FE0000000000000 = .ok (.tpin 0 0x3FE0000000000000) ∧
    decode 0x21000000000000000000 = .ok (.tprun 0 0) ∧ decode 0x22000000000000000000 = .ok (.tprd 0 0) ∧
    decode 0x23000000000000000000 = .ok (.tprst 0 0) := by decide
/-- R76: the edges of the four gaps in the opcode map. -/
theorem test_decode_illegal : [0x04, 0x0F, 0x1A, 0x1F, 0x24, 0x2F, 0x31, 0xFF].all
    (fun op => decodeTableWord 80 (op * 2 ^ 72) == none) = true := by decide
theorem test_decode_table_word : decodeTableWord 80 0x10013FF0000000000000 = some (.push 1 one) := by decide
/-- V4. -/
theorem test_serialised : wordBytes 0x10013FF0000000000000 = [0x10, 0x01, 0x3F, 0xF0, 0, 0, 0, 0, 0, 0] ∧
    decodeBytes [0x10, 0x01, 0x3F, 0xF0, 0, 0, 0, 0, 0, 0, 0x99] = .ok (.push 1 one, [0x99]) ∧
    decodeBytes [0x10, 0x01] = .error .truncated := by decide
/-- V2 and R54. -/
theorem test_response_bytes : responseBytes 0x024020000000000000 = [0x02, 0x40, 0x20, 0, 0, 0, 0, 0, 0] := by decide

/-! ### Arithmetic -/

/-- V3, the literals of R79. -/
theorem test_decimal : decimal false 1 (-1) = 0x3FB999999999999A ∧ decimal true 26 (-2) = 0xBFD0A3D70A3D70A4 ∧
    decimal false 1 (-3) = 0x3F50624DD2F1A9FC ∧ decimal true 100 0 = 0xC059000000000000 := by decide +kernel
/-- V31, V39: products. -/
theorem test_fmul : fmul 0 0 0xBFD0A3D70A3D70A4 0x400FFDF3B645A1CB = 0xBFF0A2C669057D18 ∧
    fmul 0 0 0x3FCFE28240B78034 0x400FFDF3B645A1CB = 0x3FEFE077DA2C30E0 := by decide +kernel
/-- V19 (a): two roundings, not a fused one. -/
theorem test_no_fusion : fmul 0 0 0xBFFB0CF0C24E59D0 0x3FC999999999999A = 0xBFD5A3F3CEA514A7 ∧
    fsub 0 0 0x3FB999999999999A 0xBFD5A3F3CEA514A7 = 0x3FDC0A5A350B7B0E := by decide +kernel
/-- V27: division is one rounding. -/
theorem test_fdiv : fdiv 0 0 0x4014000000000000 (u2f 12) = 0x3FDAAAAAAAAAAAAB := by decide +kernel
/-- R108: signed zeros. -/
theorem test_zeros : fsub 0 0 0 0 = 0 ∧ fmul 0 0 0xBFF0000000000000 0 = minusZero ∧ fadd 0 0 0 minusZero = 0 := by decide +kernel
/-- V38: subnormal results, ties to even. -/
theorem test_subnormal : fmul 0 0 0x0000000000000003 0x3FCFE28240B78034 = 1 ∧
    fmul 0 0 0x0000000000000002 0x3FCFE28240B78034 = 0 ∧ fmul 0 0 0x7FEFFFFFFFFFFFFF 0x3FCFE28240B78034 = 0x7FCFE28240B78033 := by
  decide +kernel
/-- R107. -/
theorem test_overflow : fadd 0 0 0x7FEFFFFFFFFFFFFF 0x7FEFFFFFFFFFFFFF = plusInf := by decide +kernel
/-- V26: `2^54 + 1` ties to even. -/
theorem test_tie_to_even : fadd 0 0 0x4350000000000000 one = 0x4350000000000000 := by decide +kernel

/-! ### The filter -/

/-- V10, second row: the impulse response under set T. -/
theorem test_fproc : ask { fresh xt with chans := [chan one 0 one 0 [], Channel.reset] } 0x02000000000000000000
    = some 0x000000000000000000 ∧
    (leaves { fresh xt with chans := [chan one 0 one 0 [], Channel.reset] } 0x02000000000000000000).chan 0
      = chan 0x3FE0000000000000 one one one [] := by decide +kernel
/-- V11, first row: the default coefficients. -/
theorem test_fproc_default : ask (fresh Config.xd) 0x02003FF0000000000000 = some 0x003FF88FDF15B33DF7 := by decide +kernel
/-- R110: `FRST 0` leaves the buffer and the other channel. -/
theorem test_frst : (leaves { fresh xt with chans := [chan one two one two [(1, one)], chan two 0 two 0 []] }
    0x01000000000000000000).chans = [chan 0 0 0 0 [(1, one)], chan two 0 two 0 []] := by decide
/-- P1: the four selectors. -/
theorem test_rdfs : [0, 1, 2, 3].map (fun k => ask { fresh xt with chans := [chan 0 0x3FE0000000000000 two one [], Channel.reset] }
    (0x03000000000000000000 + k)) = [some 0, some 0x003FE0000000000000, some 0x004000000000000000, some 0x003FF0000000000000] := by
  decide

/-! ### The accumulator -/

/-- X2 before the last `PUSH` of frame 4 of V22. -/
def beforeBlock : State := { fresh x2 with
  wp := 3
  chans := [{ chan 0xC000000000000000 0 0xC000000000000000 0
      [(0, one), (1, 0x3FE0000000000000), (3, 0xC000000000000000)] with pushed := true },
    chan 0x3FD0000000000000 0xBFF0000000000000 0x3FD0000000000000 0xBFF0000000000000
      [(0, two), (1, 0xBFF0000000000000), (2, 0x3FD0000000000000)]] }

/-- V22: the push that completes the block, and the latches it leaves. -/
theorem test_push_block : ask beforeBlock 0x10013FF0000000000000 = some 0x023FF0000000000000 ∧
    (leaves beforeBlock 0x10013FF0000000000000).blkE = 0x400B98A3D70A3D70 ∧
    (leaves beforeBlock 0x10013FF0000000000000).wp = 3 ∧
    (leaves beforeBlock 0x10013FF0000000000000).chans.map (·.blkMs) = [0x3FF5000000000000, 0x3FF8400000000000] ∧
    (leaves beforeBlock 0x10013FF0000000000000).chans.map (·.buf) =
      [[(0, 0x3FE0000000000000), (2, 0xC000000000000000), (3, 0xC000000000000000)],
       [(0, 0xBFF0000000000000), (1, 0x3FD0000000000000), (2, one), (3, one)]] := by decide +kernel
/-- V22, V24: a push that opens a frame sets `FRAME_OPEN` and leaves the cursor. -/
theorem test_push_open : ask (fresh x2) 0x10014000000000000000 = some 0x104000000000000000 ∧
    (leaves (fresh x2) 0x10014000000000000000).wp = 0 := by decide +kernel
/-- V28: the mean square of `1, +∞, 0, …` is `+∞`; V24: of `2, 0, 0, 0` it is 1. -/
theorem test_msq : ask { fresh x1 with chans := [chan 0 0 0 0 [(0, one), (1, plusInf)]] } 0x11000000000000000000
      = some 0x007FF0000000000000 ∧
    ask { fresh x2 with chans := [Channel.reset, chan 0 0 0 0 [(0, two)]] } 0x11010000000000000000
      = some 0x003FF0000000000000 := by decide +kernel
/-- R139's example: a single 2.0 in each of two buffers of `N = 8`, weights 1.0 and 1.41. -/
theorem test_wsum : ask { fresh { x2 with fs := 20 } with chans := [chan 0 0 0 0 [(0, two)], chan 0 0 0 0 [(3, two)]] }
    0x12000000000000000000 = some 0x003FF347AE147AE148 := by decide +kernel
theorem test_rdblk : ask { fresh x2 with chans := [Channel.reset, { Channel.reset with blkMs := two }] } 0x13010000000000000000
    = some 0x004000000000000000 := by decide
theorem test_rdblke : ask { fresh x2 with blkE := one } 0x14000000000000000000 = some 0x003FF0000000000000 := by decide
/-- V21: the acknowledgement clears both flags and keeps the latch. -/
theorem test_blkack : ask { fresh x2 with blockReady := true, ovr := true, blkE := one } 0x15000000000000000000 = some 0 ∧
    (leaves { fresh x2 with blockReady := true, ovr := true, blkE := one } 0x15000000000000000000).blkE = one := by decide
/-- V28: `CRST` leaves the cursor. -/
theorem test_crst : (leaves { fresh x1 with wp := 3, chans := [chan one one one one [(0, one)]] } 0x16000000000000000000)
    = { fresh x1 with wp := 3, rsps := [0] } := by decide
/-- R144: `MRST` leaves the true-peak side. -/
theorem test_mrst : leaves { beforeBlock with blkCnt := 7, blockReady := true, tpGain := one, tpTouched := true }
      0x17000000000000000000
    = { fresh x2 with tpGain := one, tpTouched := true, rsps := [0x080000000000000000] } := by decide
theorem test_rdbuf : ask beforeBlock 0x18000000000000000003 = some 0x10C000000000000000 ∧
    ask beforeBlock 0x18010000000000000003 = some 0x100000000000000000 := by decide
/-- V30b. -/
theorem test_rdw : ask (fresh x2) 0x19010000000000000000 = some 0x003FF68F5C28F5C28F := by decide
/-- V25, fourth row: the cursor wraps and no block completes. -/
theorem test_push_circ : (leaves { fresh x3 with wp := 3 } 0x10004010000000000000).wp = 0 ∧
    ask { fresh x3 with wp := 3 } 0x10004010000000000000 = some 0x004010000000000000 := by decide +kernel

/-! ### The true-peak side -/

/-- V36: the first sample, and the one past the buffer. -/
theorem test_tpin : ask (fresh tp2) 0x20003FE0000000000000 = some 0x003FBFE28240B78034 ∧
    (leaves { fresh tp2 with tpFill := 4 } 0x20003FE8000000000000).faultReg = 0x2006 := by decide +kernel
/-- P5, the first `TPRUN`, and the request it makes. -/
theorem test_tprun : ask { fresh tp2 with
      tpFill := 2, tpi := [(0, one), (1, two)],
      replies := [.answer { used := 1, gen := 4, out := [0x3FB999999999999A, 0xBFB999999999999A, 0x3FBEB851EB851EB8,
        0xBFC0A3D70A3D70A4, 0x3FBC28F5C28F5C29, 0xBFC999999999999A, 0x3FA999999999999A, 0] }] } 0x21000000000000000000
      = some 0x083FE997F62B6AE7D6 ∧
    (leaves { fresh tp2 with
      tpFill := 2, tpi := [(0, one), (1, two)], replies := [.answer { used := 1, gen := 0, out := [] }] }
      0x21000000000000000000).requests = [{ frames := 1, samples := [one, two] }] := by decide +kernel
/-- V33: a NaN sample never replaces the maximum, whatever the NaN's bits. -/
theorem test_tprun_nan (d : Nat) (gOut gain : F64) : peakScan d gOut 0 gain [quietNan] = gain := by
  have h : isNan quietNan = true := by decide
  simp [peakScan, fgt, fmul, h]
/-- V33: an infinite sample. V37: a partial frame faults before the resampler is called. -/
theorem test_tprun_partial : ask { fresh tp2 with
      tpGain := two, replies := [.answer { used := 0, gen := 1, out := [minusInf, minusZero] }] } 0x21000000000000000000
      = some 0x087FF0000000000000 ∧
    leaves { fresh tp2 with tpFill := 3, replies := [.silent] } 0x21000000000000000000
      = { fresh tp2 with
        tpFill := 3, replies := [.silent], fault := true, faultReg := 0x2107, rsps := [0x010000000000000000] } := by
  decide +kernel
theorem test_tprd : ask { fresh tp2 with tpGain := two, tpTouched := true } 0x22000000000000000000
    = some 0x084000000000000000 := by decide
/-- V34. -/
theorem test_tprst : leaves { fresh tp2 with tpGain := two, tpTouched := true, tpFill := 1 } 0x23000000000000000000
    = { fresh tp2 with rsps := [0] } := by decide

/-! ### System commands and faults -/

/-- V41. -/
theorem test_nop : ask beforeBlock 0 = some 0x100000000000000000 := by decide
/-- V40: the configuration registers of XD. -/
theorem test_rdreg : [0x10, 0x11, 0x12, 0x13, 0x14, 0x15, 0x16, 0x17, 0x20, 0x2C, 0x30, 0x31].map
    (fun k => ask (fresh Config.xd) (BitVec.ofNat 80 (0x30 * 2 ^ 72 + k * 2 ^ 64))) =
    [some 2, some 48000, some 0, some 19200, some 4800, some 2, some 512, some 2048, some 0x00BFFB0CF0C24E59D0,
     some 0x003FF0000000000000, some 0x003FCFE28240B78034, some 0x00400FFDF3B645A1CB] := by decide
/-- V65: in the fault state `RDREG` reads, and a bad index records nothing. -/
theorem test_rdreg_fault : ask { fresh x2 with fault := true, faultReg := 0x71103 } 0x30010000000000000000
      = some 0x010000000000071103 ∧
    leaves { fresh x2 with fault := true, faultReg := 0x71103 } 0x30440000000000000000
      = { fresh x2 with fault := true, faultReg := 0x71103, rsps := [0x010000000000000000] } := by decide
/-- V51, V52, V55, V56, V58, V62: the record and the priority. -/
theorem test_faults : (leaves (fresh x2) 0xFFAB123456789ABCDEF0).faultReg = 0xABFF01 ∧
    (leaves (fresh x2) 0xFFAB123456789ABCDEF0).fdata = 0x123456789ABCDEF0 ∧
    (leaves (fresh x2) 0x00010000000000000000).faultReg = 0x10002 ∧
    (leaves (fresh x2) 0x11020000000000000005).faultReg = 0x21102 ∧
    (leaves (fresh x2) 0x18C80000010000000000).faultReg = 0xC81803 ∧
    (leaves (fresh x2) 0x18000000000100000000).faultReg = 0x1804 ∧
    (leaves (fresh x2) 0x10023FF0000000000000).faultReg = 0x21003 := by decide
/-- V63: the second sample of a frame for one channel faults and does not enter the filter. -/
theorem test_frame_seq : ask beforeBlock 0x10004000000000000000 = some 0x110000000000000000 ∧
    (leaves beforeBlock 0x10004000000000000000).faultReg = 0x1005 ∧
    (leaves beforeBlock 0x10004000000000000000).chans = beforeBlock.chans := by decide
/-- The first command after reset runs (R24, log entry 3). -/
theorem test_first_command : isNext (step (State.reset.withFetchWord 80 0x10013FF0000000000000)) = true := by decide +kernel
theorem test_reset_idle : step State.reset = .next State.reset := rfl
/-- U6, U7. -/
theorem test_refusals : step { fresh { x2 with fs := 11025 } with port := [.cmd 0] } = .refused .noInstance ∧
    step { fresh tp2 with replies := [.answer { used := 1, gen := 0, out := [] }], port := [.cmd 0x21000000000000000000] }
      = .refused .resamplerBreach := ⟨rfl, rfl⟩
/-- U5. -/
theorem test_silent : step { fresh tp2 with replies := [.silent], port := [.cmd 0x21000000000000000000, .cmd 0] }
      = .next { fresh tp2 with waiting := true, requests := [{ frames := 0, samples := [] }], port := [.cmd 0] } ∧
    step { fresh tp2 with waiting := true, port := [.cmd 0] } = .fault .resamplerSilent := ⟨rfl, rfl⟩
/-- R270: `rst` abandons a `TPRUN` that waits, without a response, and so it does a command that is executing. -/
theorem test_rst_abandons : step { fresh tp2 with waiting := true, tpFill := 2, tpGain := two, port := [.rst none, .cmd 0] }
      = .next { fresh tp2 with port := [.cmd 0] } ∧
    step { beforeBlock with port := [.rst (some 0x10013FF0000000000000)] } = .next (fresh x2) := ⟨rfl, rfl⟩

/-! ### Parameters, assembler, entry points -/

/-- V40, last paragraph; R10. -/
theorem test_parameters : ({ x3 with fs := 48000, winMs := 3000 } : Config).bufLen = 144000 ∧
    ({ x1 with fs := 44100 } : Config).hop = 4410 ∧ Config.defaultOcap 4 44100 = 18 ∧
    ({ x1 with fs := 22050 } : Config).valid = true ∧ ({ x1 with fs := 11025 } : Config).valid = false ∧
    ({ x3 with winMs := 300 } : Config).valid = false := by decide
/-- `TP_RATIO` of R8, in lowest terms, and what the resampler is constructed with (R176). -/
theorem test_ratio : Config.xd.construction = { ratio := 4, channels := 2, quality := 0 } ∧
    ({ x1 with fs := 44100 } : Config).tpRatio = 640 / 147 := by
  norm_num [Config.construction, Config.tpRatio, Config.xd]
/-- The worked angles of R36: bounds included and excluded, no folding. -/
theorem test_weight : weightAt 110 0 = weightSurround ∧ weightAt 60 0 = weightSurround ∧
    weightAt 120 (299 / 10) = weightSurround ∧ weightAt (599 / 10) 0 = weightFront ∧ weightAt 90 30 = weightFront ∧
    weightAt 90 (-30) = weightFront ∧ weightAt 250 0 = weightFront := by
  norm_num [weightAt, abs_of_nonneg]
theorem test_assembler : assembleLine "PUSH 1, 1.0 ; one".toList = some [.push 1 one] ∧
    assembleLine "FPROC 0, 0x7FF8000000000000".toList = some [.fproc 0 quietNan] ∧
    assembleLine "RDREG 0x13".toList = some [.rdreg 0x13 0] ∧ assembleLine "TPIN 1e-3".toList = some [.tpin 0 0x3F50624DD2F1A9FC] ∧
    assembleLine "; nothing".toList = some [] ∧ assembleLine "PUSH 1".toList = none ∧
    assembleLine "TPIN 0x1".toList = none := by decide +kernel
/-- R80 to R84. -/
theorem test_pseudo : procd 2 [[one, two], [0, one]] = [.push 0 one, .push 1 0, .push 0 two, .push 1 one] ∧
    proci 2 [one, 0, two, one] = [.push 0 one, .push 1 0, .push 0 two, .push 1 one] ∧
    takeblk 2 = [.rdblk 0 0, .rdblk 1 0, .rdblke 0 0, .blkack 0 0] ∧ tpproc [one, two] = [.tpin 0 one, .tpin 0 two, .tprun 0 0] := by
  decide

/-! ### Witnesses: for every statement with hypotheses, a state and operands that meet them together

A name `witness_<Name>` belongs to `Obligations.<Name>`. Where a statement has several clauses, or a range, each end has one. -/

/-- A shaped state, from the five facts that make it so. -/
theorem shaped_of {s : State} (h : s.cfg.valid = true ∧ s.chans.length = s.cfg.nch ∧ s.wp.toNat < s.cfg.bufLen ∧
    s.tpFill.toNat ≤ s.cfg.tpCap ∧ s.frameFull = false) : s.Shaped := ⟨h.1, h.2.1, h.2.2.1, h.2.2.2.1, h.2.2.2.2⟩

theorem stored_of {s : State} (h : s.chans.all (fun k => k.buf.wf && k.buf.below s.cfg.bufLen) = true)
    (ht : (s.tpi.wf && s.tpi.below s.cfg.tpCap) = true) : s.Stored := by
  refine ⟨fun k hk => ?_, by simpa using ht⟩
  have := List.all_eq_true.mp h k hk
  simpa using this

theorem beforeBlock_shaped : beforeBlock.Shaped := shaped_of (by decide)
theorem beforeBlock_stored : beforeBlock.Stored := stored_of (by decide) (by decide)
theorem fresh_shaped_x2 : (fresh x2).Shaped := shaped_of (by decide)

/-- X1 with the cursor at the last element, and its CIRC counterpart. -/
def lastX1 : State := { fresh x1 with wp := 7 }
def lastX3 : State := { fresh x3 with wp := 3 }

theorem witness_EncodeOfDecodeIsTheWord : ∃ i, decode 0x10013FF0000000000000 = .ok i := ⟨.push 1 one, by decide⟩

theorem witness_StepRunsTheDecodedCommand : ∃ (s : State) (w : CmdWord) (i : Instr),
    s.cfg.valid = true ∧ s.waiting = false ∧ s.port = .cmd w :: [] ∧ decode w = .ok i :=
  ⟨{ fresh x2 with port := [.cmd 0x10013FF0000000000000] }, 0x10013FF0000000000000, .push 1 one, by decide, rfl, rfl, by decide⟩

/-- Both ends of all four gaps. -/
theorem witness_IllegalOpcodeFaults : (fresh x2).cfg.valid = true ∧ (fresh x2).waiting = false ∧ (fresh x2).fault = false ∧
    ∀ op ∈ [0x04, 0x0F, 0x1A, 0x1F, 0x24, 0x2F, 0x31, 0xFF],
      let o := (opField (BitVec.ofNat 80 (op * 2 ^ 72))).toNat
      (0x04 ≤ o ∧ o ≤ 0x0F) ∨ (0x1A ≤ o ∧ o ≤ 0x1F) ∨ (0x24 ≤ o ∧ o ≤ 0x2F) ∨ 0x31 ≤ o := by decide

theorem witness_IdleAndRefusedSteps : (fresh x2).port = [] ∧ ({ x2 with fs := 11025 } : Config).valid = false := by decide

/-- In the fault state; while a `TPRUN` waits; while a `PUSH` is executing. -/
theorem witness_RstRestoresEveryRegister :
    (∃ s : State, s.cfg.valid = true ∧ s.port = .rst none :: [] ∧ s.fault = true) ∧
    (∃ s : State, s.cfg.valid = true ∧ s.port = .rst none :: [] ∧ s.waiting = true) ∧
    (∃ s : State, s.cfg.valid = true ∧ s.port = .rst (some 0x10013FF0000000000000) :: []) :=
  ⟨⟨{ fresh x2 with fault := true, port := [.rst none] }, by decide, rfl, rfl⟩,
    ⟨{ fresh x2 with waiting := true, port := [.rst none] }, by decide, rfl, rfl⟩,
    ⟨{ fresh x2 with port := [.rst (some 0x10013FF0000000000000)] }, by decide, rfl⟩⟩

theorem witness_ResetStateIsLegal : Config.xd.valid = true ∧ x1.valid = true ∧ x2.valid = true ∧ x3.valid = true ∧ xt.valid = true ∧
    tp2.valid = true := by decide

/-- One for each cause that a decoded command can raise, at the boundary of its range. -/
theorem witness_FaultEntryIsPrecise :
    firstCause (.nop 1 0) (fresh x2) = some .reservedField ∧ firstCause (.msq 2 0) (fresh x2) = some .badChannel ∧
    firstCause (.rdbuf 0 4) (fresh x2) = some .badIndex ∧ firstCause (.rdfs 0 4) (fresh x2) = some .badIndex ∧
    firstCause (.rdreg 0x32 0) (fresh x2) = some .badIndex ∧ firstCause (.push 0 one) beforeBlock = some .frameSeq ∧
    firstCause (.tpin 0 one) { fresh tp2 with tpFill := 4 } = some .tpBufOver ∧
    firstCause (.tprun 0 0) { fresh tp2 with tpFill := 3 } = some .tpFramePartial := by decide

/-- The second clause: a word that is no command. -/
theorem witness_FaultEntryOfAWordThatIsNoCommand : ∃ e, (fresh x2).cfg.valid = true ∧ (fresh x2).waiting = false ∧
    (fresh x2).fault = false ∧ decode 0x31000000000000000000 = .error e := ⟨.illegalOp 0x31, by decide, rfl, rfl, by decide⟩

/-- Into the fault state by a decoded command and by an undefined opcode, and out of it. -/
theorem witness_FaultStateIsEnteredAndLeft :
    (∀ w ∈ [(0x11020000000000000000 : CmdWord), 0x31000000000000000000], ∃ t,
      step { fresh x2 with port := [.cmd w] } = .next t ∧ t.fault = true) ∧
    ∃ t, step { fresh x2 with fault := true, port := [.rst none] } = .next t ∧ t.fault = false := by
  refine ⟨fun w hw => ?_, _, rfl, rfl⟩
  simp only [List.mem_cons, List.not_mem_nil, or_false] at hw
  rcases hw with rfl | rfl <;> exact ⟨_, rfl, rfl⟩

theorem witness_ProperCommandRaisesNothing : ∃ t, Proper (.push 1 quietNan) (fresh x2) ∧
    exec (.push 1 quietNan) (fresh x2) = .next t := by
  obtain ⟨t, h⟩ := next_of (r := exec (.push 1 quietNan) (fresh x2)) (by decide)
  exact ⟨t, ⟨by decide, by decide⟩, h⟩

/-- The two clauses on the response: an `RDREG` that reads, and words that do not. -/
theorem witness_FaultStateIsFrozen : (fresh x2).cfg.valid = true ∧ (fresh x2).waiting = false ∧ ({ fresh x2 with fault := true } : State).fault = true ∧
    decode 0x30310000000000000000 = .ok (.rdreg 0x31 0) ∧ regIndexDefined 0x31 = true ∧ regIndexDefined 0x32 = false ∧
    decode 0x30310000000000000001 = .ok (.rdreg 0x31 1) ∧ decode 0x17000000000000000000 = .ok (.mrst 0 0) := by decide

theorem witness_EveryCommandAnswersOnce : ∃ (s t : State) (w : CmdWord), s.port = .cmd w :: [] ∧ step s = .next t := by
  obtain ⟨t, h⟩ := next_of (r := step { fresh x2 with port := [.cmd 0x10013FF0000000000000] }) (by decide)
  exact ⟨_, t, _, rfl, h⟩

/-- A breach; a silence that is waited for; a command presented meanwhile; parameters that are no instance. -/
theorem witness_OnlyTprunCanStop :
    (∀ t, exec (.tprun 0 0) { fresh tp2 with replies := [.answer { used := 1, gen := 0, out := [] }] } ≠ .next t) ∧
    (Proper (.tprun 0 0) { fresh tp2 with replies := [.silent], tpFill := 2 }) ∧
    (∀ t, step { fresh tp2 with waiting := true, port := [.cmd 0] } ≠ .next t) ∧
    (∀ t, step { fresh tp2 with
      replies := [.answer { used := 1, gen := 0, out := [] }], port := [.cmd 0x21000000000000000000] } ≠ .next t) ∧
    (∀ t, step { fresh { x2 with fs := 11025 } with port := [.rst none] } ≠ .next t) ∧
    tp2.valid = true :=
  ⟨(fun _ h => nomatch h), ⟨by decide, by decide⟩, (fun _ h => nomatch h), (fun _ h => nomatch h), (fun _ h => nomatch h),
    by decide⟩

/-- A step that completes a block, from a state that is legal in every sense the invariants ask for. -/
theorem witness_StepKeepsInvariants : ∃ s t : State, s.Shaped ∧ s.Stored ∧ s.PeakLegal ∧ s.RecordLegal ∧ s.LatchesLegal ∧
    s.CursorLegal ∧ s.FiltersQuiet ∧ step s = .next t ∧ (∀ d rest, s.port ≠ .rst d :: rest) ∧
    (∀ w rest, s.port = .cmd w :: rest → opField w ≠ 0x23) := by
  obtain ⟨t, h⟩ := next_of (r := step { beforeBlock with port := [.cmd 0x10013FF0000000000000] }) (by decide)
  refine ⟨_, t, shaped_of (by decide), stored_of (by decide) (by decide), by unfold State.PeakLegal; decide,
    by unfold State.RecordLegal; decide, ⟨by decide, by decide⟩, by unfold State.CursorLegal; decide, ?_, h, by simp, ?_⟩
  · unfold State.FiltersQuiet notSignalling
    decide
  · intro w rest hp
    injection hp with h1 h2
    injection h1 with h1
    subst h1
    decide

/-- A mode-CIRC state, a state after a block, and a state in the fault state: the other clauses of the legality predicates. -/
theorem witness_LegalStates : (∃ s : State, s.LatchesLegal ∧ s.cfg.mode = .circ) ∧
    (∃ s : State, s.LatchesLegal ∧ s.CursorLegal ∧ s.cfg.mode = .block ∧ s.blkCnt ≠ 0 ∧ s.ovr = true) ∧
    (∃ s : State, s.RecordLegal ∧ s.fault = true) := by
  refine ⟨⟨fresh x3, ⟨by decide, fun _ => ⟨rfl, rfl, rfl, by decide⟩⟩, rfl⟩,
    ⟨{ fresh x1 with wp := 6, blkCnt := 2, blockReady := true, ovr := true }, ⟨by decide, by decide⟩, ?_, rfl, by decide, rfl⟩,
    ⟨{ fresh x2 with fault := true, faultReg := 0x71103 }, ?_, rfl⟩⟩
  · unfold State.CursorLegal
    decide
  · unfold State.RecordLegal
    decide

theorem witness_TruePeakCommandsLeaveLoudnessAlone : ∃ t, truePeakCommand (.tprst 0 0) = true ∧
    exec (.tprst 0 0) (fresh x2) = .next t := ⟨_, rfl, rfl⟩

theorem witness_LoudnessCommandsLeaveTruePeakAlone : ∃ t, loudnessCommand (.push 1 one) = true ∧
    exec (.push 1 one) beforeBlock = .next t := by
  obtain ⟨t, h⟩ := next_of (r := exec (.push 1 one) beforeBlock) (by decide)
  exact ⟨t, rfl, h⟩

/-- Every read command is proper somewhere. -/
theorem witness_ReadCommandsHaveNoSideEffects : ∀ i ∈ [Instr.nop 0 0, .rdfs 1 3, .msq 1 0, .wsum 0 0, .rdblk 1 0, .rdblke 0 0,
    .rdbuf 1 3, .rdw 1 0, .tprd 0 0, .rdreg 0x31 0], readCommand i = true ∧ Proper i (fresh x2) := by
  unfold Proper
  decide

/-- Two states that differ on the true-peak side and at the ports. -/
theorem witness_LoudnessIsDeterminedByLoudness : ∃ s s' t : State, loudnessCommand (.push 1 one) = true ∧ s'.cfg = s.cfg ∧
    SameLoudness s s' ∧ s'.fault = s.fault ∧ s'.draws = s.draws ∧ s' ≠ s ∧ exec (.push 1 one) s = .next t := by
  obtain ⟨t, h⟩ := next_of (r := exec (.push 1 one) beforeBlock) (by decide)
  exact ⟨beforeBlock, { beforeBlock with tpGain := one, port := [.rst none] }, t, rfl, rfl, ⟨rfl, rfl, rfl, rfl, rfl, rfl⟩, rfl, rfl,
    by decide, h⟩

/-- Two states that share the filter of channel 1 and nothing else of the channels. -/
theorem witness_FilterChannelsAreIndependent : ∃ s s' : State, Proper (.fproc 1 one) s ∧ Proper (.fproc 1 one) s' ∧
    s'.cfg = s.cfg ∧ s'.draws = s.draws ∧ 1 < s.chans.length ∧ 1 < s'.chans.length ∧
    SameFilter (s.chan 1) (s'.chan 1) ∧ s'.chan 0 ≠ s.chan 0 := by
  refine ⟨{ fresh x2 with chans := [chan one one one one [], chan two one two one []] },
    { fresh x2 with chans := [Channel.reset, chan two one two one [(0, one)]] }, ?_⟩
  unfold Proper SameFilter
  decide

/-- The second push opens the frame (in `fresh x2`) or completes a block (at the last element). -/
theorem witness_PushesOfAFrameCommute : ∀ s ∈ [fresh x2, { fresh x2 with wp := 3 }], s.Shaped ∧ Proper (.push 0 one) s ∧
    Proper (.push 1 two) s ∧ numericCascade s.draws s.cfg (s.chan 0) one = true ∧
    numericCascade s.draws s.cfg (s.chan 1) two = true := by
  intro s hs
  simp only [List.mem_cons, List.not_mem_nil, or_false] at hs
  rcases hs with rfl | rfl
  · exact ⟨shaped_of (by decide), ⟨by decide, by decide⟩, ⟨by decide, by decide⟩, by decide +kernel, by decide +kernel⟩
  · exact ⟨shaped_of (by decide), ⟨by decide, by decide⟩, ⟨by decide, by decide⟩, by decide +kernel, by decide +kernel⟩

theorem witness_NopAnswersZero : (fresh x2).fault = false ∧ ((1 : BitVec 8) ≠ 0 ∨ (0 : BitVec 64) ≠ 0) ∧
    ((0 : BitVec 8) ≠ 0 ∨ (1 : BitVec 64) ≠ 0) := by decide

/-- Both ends of each group of indices, in the map and accepted. -/
theorem witness_RdregReadsTheMap : ∀ k ∈ [0x00, 0x06, 0x10, 0x17, 0x20, 0x24, 0x28, 0x2C, 0x30, 0x31],
    Proper (.rdreg (BitVec.ofNat 8 k) 0) (fresh x2) ∧ k ∈ (registerMap (fresh x2)).map Prod.fst := by
  unfold Proper
  decide

theorem witness_FrstZeroesTheFilter : Proper (.frst 1 0) (fresh x2) ∧ (fresh x2).chans.length = (fresh x2).cfg.nch := by
  unfold Proper
  decide

theorem witness_FprocRunsTheCascade : Proper (.fproc 1 quietNan) (fresh x2) ∧ (fresh x2).chans.length = (fresh x2).cfg.nch := by
  unfold Proper
  decide

/-- The three ways a NaN can be there. -/
theorem witness_NanPoisonsTheChannel : isNan quietNan = true ∧ Proper (.fproc 0 quietNan) (fresh xt) ∧
    (∀ k ∈ [chan quietNan one 0 0 [], chan one quietNan 0 0 []],
      Proper (.fproc 0 one) { fresh xt with chans := [k, Channel.reset] } ∧ (isNan k.prev1 = true ∨ isNan k.last1 = true)) := by
  refine ⟨by decide, ⟨by decide, by decide⟩, fun k hk => ⟨⟨rfl, rfl⟩, ?_⟩⟩
  simp only [List.mem_cons, List.not_mem_nil, or_false] at hk
  rcases hk with rfl | rfl
  · exact .inl (by decide)
  · exact .inr (by decide)

theorem witness_RdfsReadsTheSelectedRegister : ∀ sel ∈ [(0 : BitVec 64), 1, 2, 3],
    Proper (.rdfs 1 sel) (fresh x2) := by
  intro sel h
  simp only [List.mem_cons, List.not_mem_nil, or_false] at h
  rcases h with rfl | rfl | rfl | rfl <;> exact ⟨by decide, by decide⟩

theorem witness_PushWithinAFrame : (fresh x2).Shaped ∧ (fresh x2).Stored ∧ Proper (.push 1 one) (fresh x2) ∧
    ∃ e, e < (fresh x2).cfg.nch ∧ e ≠ (1 : BitVec 8).toNat ∧ ((fresh x2).chan e).pushed = false :=
  ⟨shaped_of (by decide), stored_of (by decide) (by decide), ⟨by decide, by decide⟩, 0, by decide, by decide, by decide⟩

/-- The first frame and the last one before the buffer is full. -/
theorem witness_PushCommitsTheFrame : ∀ wp ∈ [(0 : BitVec 32), 6], ({ fresh x1 with wp := wp } : State).Shaped ∧
    ({ fresh x1 with wp := wp } : State).Stored ∧ Proper (.push 0 one) { fresh x1 with wp := wp } ∧
    (∀ e, e < 1 → e ≠ (0 : BitVec 8).toNat → (({ fresh x1 with wp := wp } : State).chan e).pushed = true) ∧
    wp.toNat + 1 < x1.bufLen := by
  intro wp hwp
  simp only [List.mem_cons, List.not_mem_nil, or_false] at hwp
  rcases hwp with rfl | rfl <;>
    exact ⟨shaped_of (by decide), stored_of (by decide) (by decide), ⟨by decide, by decide⟩, by decide, by decide⟩

theorem witness_PushWrapsTheCursorInCirc : lastX3.Shaped ∧ lastX3.Stored ∧ Proper (.push 0 one) lastX3 ∧
    lastX3.cfg.mode = .circ ∧ (∀ e, e < lastX3.cfg.nch → e ≠ (0 : BitVec 8).toNat → (lastX3.chan e).pushed = true) ∧
    lastX3.wp.toNat + 1 = lastX3.cfg.bufLen :=
  ⟨shaped_of (by decide), stored_of (by decide) (by decide), ⟨by decide, by decide⟩, rfl, by decide, by decide⟩

/-- One channel, and two channels with the other one pushed before. -/
theorem witness_PushCompletesTheBlock :
    (lastX1.Shaped ∧ lastX1.Stored ∧ Proper (.push 0 one) lastX1 ∧ lastX1.cfg.mode = .block ∧
      (∀ e, e < lastX1.cfg.nch → e ≠ (0 : BitVec 8).toNat → (lastX1.chan e).pushed = true) ∧
      lastX1.wp.toNat + 1 = lastX1.cfg.bufLen) ∧
    (beforeBlock.Shaped ∧ beforeBlock.Stored ∧ Proper (.push 1 one) beforeBlock ∧ beforeBlock.cfg.mode = .block ∧
      (∀ e, e < beforeBlock.cfg.nch → e ≠ (1 : BitVec 8).toNat → (beforeBlock.chan e).pushed = true) ∧
      beforeBlock.wp.toNat + 1 = beforeBlock.cfg.bufLen) :=
  ⟨⟨shaped_of (by decide), stored_of (by decide) (by decide), ⟨by decide, by decide⟩, rfl, by decide, by decide⟩,
    ⟨beforeBlock_shaped, beforeBlock_stored, ⟨by decide, by decide⟩, rfl, by decide, by decide⟩⟩

theorem witness_ShiftMovesLeftByTheHop : Mem.wf [(0, one), (3, two)] = true ∧ 0 < 1 := by decide

theorem witness_MsqAnswersTheMeanSquare : Proper (.msq 1 0) (fresh x2) := by unfold Proper; decide

/-- Zeros of both signs, up to the last element. -/
theorem witness_SilenceHasZeroEnergy : 0 < 4 ∧ 4 < 2 ^ 32 ∧
    ∀ i, i < 4 → isZero (Mem.read [(0, minusZero), (3, minusZero)] i) = true := by decide

theorem witness_WsumAnswersTheWeightedSum : (fresh x2).Shaped ∧ Proper (.wsum 0 0) (fresh x2) :=
  ⟨fresh_shaped_x2, by decide, by decide⟩

theorem witness_UnityWeightIsExact : isNan plusInf = false ∧ isNan minusZero = false ∧ isNan 0x0000000000000001 = false := by decide

/-- One for each of the five commands; for `RDBUF` both ends of the range. -/
theorem witness_ReadOutsAnswerWhatIsStored : ∀ i ∈ [Instr.rdblk 1 0, .rdblke 0 0, .rdbuf 0 0, .rdbuf 1 3, .rdw 1 0, .tprd 0 0],
    Proper i (fresh x2) := by
  unfold Proper
  decide

theorem witness_BlkackClearsItsFlags : Proper (.blkack 0 0) { fresh x2 with blockReady := true, ovr := true } := by
  unfold Proper
  decide

theorem witness_CrstZeroesTheChannel : Proper (.crst 1 0) beforeBlock ∧ beforeBlock.chans.length = beforeBlock.cfg.nch := by
  unfold Proper
  decide

theorem witness_MrstRestoresTheLoudnessSide : Proper (.mrst 0 0) beforeBlock ∧
    beforeBlock.chans.length = beforeBlock.cfg.nch := by
  unfold Proper
  decide

/-- The first and the last element of `TPI`. -/
theorem witness_TpinAppendsTheScaledSample : ∀ n ∈ [(0 : BitVec 32), 3], ({ fresh tp2 with tpFill := n } : State).Shaped ∧
    ({ fresh tp2 with tpFill := n } : State).Stored ∧ Proper (.tpin 0 one) { fresh tp2 with tpFill := n } := by
  intro n hn
  simp only [List.mem_cons, List.not_mem_nil, or_false] at hn
  rcases hn with rfl | rfl <;> exact ⟨shaped_of (by decide), stored_of (by decide) (by decide), by decide, by decide⟩

/-- An answer at both bounds of the contract, and the empty one. -/
theorem witness_TprunScansTheAnswer : ∀ r ∈ [({ used := 2, gen := 8, out := List.replicate 16 one } : Reply),
    { used := 0, gen := 0, out := [] }],
    Proper (.tprun 0 0) { fresh tp2 with tpFill := 4, replies := [.answer r] } ∧ r.used ≤ 4 / tp2.tpNch ∧
      r.gen ≤ tp2.tpOcap ∧ r.out.length = r.gen * tp2.tpNch := by
  unfold Proper
  decide

theorem witness_PeakIsTheMaximum : isNan 0 = false ∧ isNan plusInf = false := by decide

theorem witness_TprunCompletesWithAFreeAnswer : (fresh tp2).cfg.valid = true ∧ Proper (.tprun 0 0) (fresh tp2) ∧
    (fresh tp2).replies = [] := by
  unfold Proper
  decide

theorem witness_TprstClearsThePeak : Proper (.tprst 0 0) { fresh tp2 with tpGain := one, tpFill := 3 } := by
  unfold Proper
  decide

/-- Finite operands of every kind, with finite results. -/
theorem witness_ResultsAreRoundedToNearestEven : isFinite 0x0000000000000001 = true ∧ isFinite minusZero = true ∧
    isFinite 0x7FEFFFFFFFFFFFFF = true ∧ isZero two = false ∧ isFinite (fadd 0 0 one minusZero) = true ∧
    isFinite (fmul 0 0 0x0000000000000001 one) = true ∧ isFinite (fdiv 0 0 one two) = true ∧
    isFinite (fsub 0 0 0x7FEFFFFFFFFFFFFF 0x7FEFFFFFFFFFFFFF) = true := by decide +kernel

/-- Finite operands whose sum or product is infinite, of both signs. -/
theorem witness_OverflowGivesInfinity : isFinite 0x7FEFFFFFFFFFFFFF = true ∧ isFinite 0xFFEFFFFFFFFFFFFF = true ∧
    isInf (fadd 0 0 0x7FEFFFFFFFFFFFFF 0x7FEFFFFFFFFFFFFF) = true ∧
    isInf (fmul 0 0 0xFFEFFFFFFFFFFFFF 0x7FEFFFFFFFFFFFFF) = true := by decide +kernel

/-- Operands for each of the six clauses. -/
theorem witness_InvalidOperationsGiveAQuietNan : isNan quietNan = true ∧ isInf plusInf = true ∧ isInf minusInf = true ∧
    sign plusInf ≠ sign minusInf ∧ isZero 0 = true ∧ isZero minusZero = true := by decide

theorem witness_EntryPointsAreTheSameCommands :
    let p := [[one, two], [0, one]]
    let flat := [one, 0, two, one]
    0 < 2 ∧ p.length = 2 ∧ (∀ ch ∈ p, ch.length = 2) ∧ flat.length = 2 * 2 ∧
      (∀ f, f < 2 → ∀ c, c < 2 → flat.getD (f * 2 + c) 0 = (p.getD c []).getD f 0) := by decide

end Sys2Proof.Tests
end

section
/-! SUPPORT. A command word at the port: which opcodes R74 leaves undefined, and what the step and the fault entry do with one. -/

namespace Sys2Proof

/-- The nineteen opcodes lie in four ranges (R74, R76). -/
theorem Instr.opcode_ranges (i : Instr) :
    i.opcode.toNat ≤ 0x03 ∨ (0x10 ≤ i.opcode.toNat ∧ i.opcode.toNat ≤ 0x19) ∨
      (0x20 ≤ i.opcode.toNat ∧ i.opcode.toNat ≤ 0x23) ∨ i.opcode.toNat = 0x30 := by
  cases i <;> simp [Instr.opcode]

/-- The decoder rejects a word by its `OP` field alone (R73 step 1). -/
theorem decode_of_no_opcode {w : CmdWord} (h : ∀ i : Instr, i.opcode ≠ opField w) :
    decode w = .error (.illegalOp (opField w)) := by
  unfold decode
  cases hi : instrOf (opField w) (chField w) (dataField w) with
  | none => rfl
  | some i => exact absurd (instrOf_some hi).1 (h i)

end Sys2Proof

namespace Sys2Proof.Machine

/-- In an instance where no `TPRUN` waits, a step takes the next command word (R13, R59). -/
theorem step_of_cmd {s : State} {w : CmdWord} {rest : List PortEvent} (hv : s.cfg.valid = true) (hw : s.waiting = false)
    (hp : s.port = .cmd w :: rest) : step s = acceptWord w { s with port := rest } := by
  simp [step, hp, takeEvent, hv, hw]

/-- A word that is no command raises `ILLEGAL_OP` (R76). -/
theorem acceptWord_of_error {w : CmdWord} {e : DecodeError} (hd : decode w = .error e) (s : State) :
    acceptWord w s = .next (s.raise .illegalOp (opField w) (chField w) (dataField w)) := by
  simp [acceptWord, hd, illegalWord]

section FaultEntry
variable {s : State} (h : s.fault = false) (c : Cause) (op ch : BitVec 8) (data : BitVec 64)
include h

/-- The fault entry records the word and its cause (R245). -/
theorem State.raise_records :
    (s.raise c op ch data).fault = true ∧
      (s.raise c op ch data).faultReg.toNat = ch.toNat * 2 ^ 16 + op.toNat * 2 ^ 8 + c.code.toNat ∧
      (s.raise c op ch data).fdata = data := by
  rw [State.raise_of_running h]
  exact ⟨rfl, faultRecord_toNat c op ch, rfl⟩

/-- The fault entry leaves the parameters and both sides of the block, and draws no free value (R245). -/
theorem State.raise_stays :
    (s.raise c op ch data).cfg = s.cfg ∧ SameLoudness s (s.raise c op ch data) ∧
      SameTruePeak s (s.raise c op ch data) ∧ SamePorts s (s.raise c op ch data) ∧ (s.raise c op ch data).draws = s.draws := by
  rw [State.raise_of_running h]
  exact ⟨rfl, ⟨rfl, rfl, rfl, rfl, rfl, rfl⟩, ⟨rfl, rfl, rfl, rfl⟩, ⟨rfl, rfl, rfl, rfl⟩, rfl⟩

/-- The fault entry responds 0, `ST` showing the fault state (R245). -/
theorem State.raise_answers : Answers s (s.raise c op ch data) 0 := by
  rw [State.raise_of_running h]
  exact State.respond_answers s 0 _ rfl

end FaultEntry

/-- Settles O6: no opcode of R74 lies in the four gaps of R76, so the word does not decode and the step is the fault entry. -/
theorem illegalOpcodeFaults : Obligations.IllegalOpcodeFaults := by
  intro s w rest hv hw hp hf hop
  have hno : ∀ i : Instr, i.opcode ≠ opField w := fun i hi => by
    have hr := i.opcode_ranges
    rw [hi] at hr
    omega
  have hstep := (step_of_cmd hv hw hp).trans (acceptWord_of_error (decode_of_no_opcode hno) _)
  have hrun : ({ s with port := rest } : State).fault = false := hf
  obtain ⟨hfault, hreg, hdata⟩ := State.raise_records hrun .illegalOp (opField w) (chField w) (dataField w)
  obtain ⟨hcfg, hloud, hpeak, ⟨hport, hrep, hreq, hwait⟩, -⟩ :=
    State.raise_stays hrun .illegalOp (opField w) (chField w) (dataField w)
  exact ⟨_, hstep, hfault, hreg, hdata, hcfg, hloud, hpeak, hport, hrep, hreq, hwait.trans hw,
    State.raise_answers hrun _ _ _ _⟩

end Sys2Proof.Machine
end

section
/-! SUPPORT. `NOP` (R200): which of its words meets a condition of R243, and what it does. -/

namespace Sys2Proof

/-- A `NOP` keeps R75 exactly when both its fields are zero. -/
theorem Instr.nop_reservedZero_iff {ch : BitVec 8} {data : BitVec 64} :
    (Instr.nop ch data).reservedZero = true ↔ ch = 0 ∧ data = 0 := by
  simp [Instr.reservedZero, Instr.chMustBeZero, Instr.dataMustBeZero, Instr.ch, Instr.data]

end Sys2Proof

namespace Sys2Proof.Machine

/-- A must-be-zero field that is not zero comes first in the priority of R243. -/
theorem firstCause_of_reserved {i : Instr} (h : i.reservedZero = false) (s : State) :
    firstCause i s = some .reservedField := by
  simp [firstCause, h]

/-- No condition of R243 holds of the all-zero `NOP`. -/
theorem firstCause_nop_zero (s : State) : firstCause (.nop 0 0) s = none := rfl

/-- Responding leaves the ports as they are. -/
theorem State.respond_samePorts (s : State) (d : BitVec 64) : SamePorts s (s.respond d) := ⟨rfl, rfl, rfl, rfl⟩

/-- `NOP` is executed in every state, and only responds (R200, R246). -/
theorem exec_nop_zero (s : State) : exec (.nop 0 0) s = .next (s.respond 0) :=
  (exec_of_none (.inr rfl) (firstCause_nop_zero s)).1

/-- Outside the fault state a `NOP` with a field that is not zero takes the fault entry (R75, R245). -/
theorem exec_nop_reserved {s : State} {ch : BitVec 8} {data : BitVec 64} (hf : s.fault = false) (h : ch ≠ 0 ∨ data ≠ 0) :
    exec (.nop ch data) s = .next (s.raise .reservedField 0x00 ch data) := by
  have hres : (Instr.nop ch data).reservedZero = false := by
    rw [Bool.eq_false_iff, Ne, Instr.nop_reservedZero_iff]
    tauto
  exact exec_of_cause (.inl hf) (firstCause_of_reserved hres s)

/-- Settles O32: the all-zero `NOP` meets no condition and only responds; any other one is the fault entry of `RESERVED_FIELD`. -/
theorem nopAnswersZero : Obligations.NopAnswersZero := by
  refine ⟨by decide, fun s => ⟨?_, fun ch data hf h => ?_⟩⟩
  · exact ⟨_, exec_nop_zero s, s.respond_sameBlock 0, s.respond_samePorts 0, s.respond_answers 0 s rfl⟩
  · obtain ⟨hfault, hreg, hdata⟩ := State.raise_records hf .reservedField 0x00 ch data
    exact ⟨_, exec_nop_reserved hf h, hfault, by simpa [Cause.code] using hreg, hdata, State.raise_answers hf _ _ _ _⟩

end Sys2Proof.Machine
end

section
/-! SUPPORT. The fault state: what the decoder reads of a word, what every command word does there (R246), how it is entered
(R245), and that no command's own rule touches it. -/

namespace Sys2Proof

/-- A decoded command carries the fields of its word (R70, R74). -/
theorem decode_fields {w : CmdWord} {i : Instr} (h : decode w = .ok i) :
    i.opcode = opField w ∧ i.ch = chField w ∧ i.data = dataField w := by
  unfold decode at h
  cases hi : instrOf (opField w) (chField w) (dataField w) with
  | none => simp [hi] at h
  | some j =>
    obtain rfl : j = i := by simpa [hi] using h
    exact instrOf_some hi

end Sys2Proof

namespace Sys2Proof.Machine

/-! ### What is executed in the fault state -/

/-- Bit 0 of the `ST` byte is `STATUS.FAULT` (R29, R72). -/
theorem statusByte_getLsbD_zero (s : State) : (statusByte s).getLsbD 0 = s.fault := by
  rw [statusByte, BitVec.getLsbD_append]
  simp

/-- Bit 0 of `STATUS` is `STATUS.FAULT` (R29). -/
theorem statusWord_getLsbD_zero (s : State) : (statusWord s).getLsbD 0 = s.fault := by
  rw [statusWord, BitVec.getLsbD_setWidth, statusByte_getLsbD_zero]
  simp

/-- A word that decodes is executed (R73). -/
theorem acceptWord_of_ok {w : CmdWord} {i : Instr} (hd : decode w = .ok i) (s : State) : acceptWord w s = exec i s := by
  simp [acceptWord, hd]

/-- No condition holds of an `RDREG` exactly where its `DATA` is zero and R202 has its index (R201). -/
theorem firstCause_rdreg_eq_none_iff {ch : BitVec 8} {data : BitVec 64} {s : State} :
    firstCause (.rdreg ch data) s = none ↔ data = 0 ∧ regIndexDefined ch = true := by
  simp [firstCause, Instr.reservedZero, Instr.chMustBeZero, Instr.dataMustBeZero, namesChannel, indexOut, indexBound,
    ownCause, Instr.data]
  split_ifs <;> simp_all

/-- What a command responds in the fault state (R246): only an `RDREG` that meets no condition reads anything. -/
def dataInFault (s : State) : Instr → BitVec 64
  | .rdreg ch data => if data = 0 ∧ regIndexDefined ch = true then regValue s ch else 0
  | _ => 0

section InFault
variable {s : State} (hf : s.fault = true)
include hf

/-- In the fault state a command that raises a condition responds 0, the first fault being kept (R246). -/
theorem exec_of_cause_in_fault {i : Instr} {c : Cause} (hr : runsInFault i.opcode = true) (hc : firstCause i s = some c) :
    exec i s = .next (s.respond 0) := by
  rw [exec_of_cause (.inr hr) hc, State.raise_of_fault hf]

/-- In the fault state an `RDREG` only responds: its register, or 0 where a condition holds (R201, R246). -/
theorem exec_rdreg_in_fault (ch : BitVec 8) (data : BitVec 64) :
    exec (.rdreg ch data) s = .next (s.respond (dataInFault s (.rdreg ch data))) := by
  cases hc : firstCause (.rdreg ch data) s with
  | none =>
    rw [dataInFault, if_pos (firstCause_rdreg_eq_none_iff.mp hc)]
    exact (exec_of_none (.inr rfl) hc).1
  | some c =>
    rw [dataInFault, if_neg fun h => by simp [firstCause_rdreg_eq_none_iff.mpr h] at hc]
    exact exec_of_cause_in_fault hf rfl hc

/-- In the fault state a `NOP` responds 0, well formed or not (R200, R246). -/
theorem exec_nop_in_fault (ch : BitVec 8) (data : BitVec 64) : exec (.nop ch data) s = .next (s.respond 0) := by
  cases hc : firstCause (.nop ch data) s with
  | none => exact (exec_of_none (.inr rfl) hc).1
  | some c => exact exec_of_cause_in_fault hf rfl hc

/-- In the fault state every command only responds (R246). -/
theorem exec_in_fault (i : Instr) : exec i s = .next (s.respond (dataInFault s i)) := by
  cases i with
  | nop ch data => exact exec_nop_in_fault hf ch data
  | rdreg ch data => exact exec_rdreg_in_fault hf ch data
  | _ => exact exec_of_fault hf rfl

end InFault

/-- Settles O13: in the fault state every command word, decoded or not, is answered by a response alone. -/
theorem faultStateIsFrozen : Obligations.FaultStateIsFrozen := by
  intro s w rest hv hw hf hp
  have hin : ({ s with port := rest } : State).fault = true := hf
  refine ⟨State.respond { s with port := rest } _, ?_, State.respond_sameBlock _ _, rfl, rfl, rfl, hw,
    (statusByte_getLsbD_zero _).trans hf, by simp [State.successful, hf], State.respond_answers s _ _ rfl⟩
  rw [step_of_cmd hv hw hp]
  cases hd : decode w with
  | error e => rw [acceptWord_of_error hd, State.raise_of_fault hin]
  | ok i =>
    rw [acceptWord_of_ok hd, exec_in_fault hin]
    cases i <;> rfl

/-! ### Fault entry -/

/-- The codes the statements name are the model's (R241). -/
theorem causeNumber_eq (c : Cause) : causeNumber c = c.code.toNat := by
  cases c <;> rfl

/-- Settles O11: the fault entry is `State.raise`, which a command takes on its first condition and a word that is no command
takes with `ILLEGAL_OP`. -/
theorem faultEntryIsPrecise : Obligations.FaultEntryIsPrecise := by
  refine ⟨fun i s c hf hc => ?_, fun s w rest e hv hw hf hp hd => ?_⟩
  · obtain ⟨hfault, hreg, hdata⟩ := State.raise_records hf c i.opcode i.ch i.data
    obtain ⟨hcfg, hloud, hpeak, hports, hdraws⟩ := State.raise_stays hf c i.opcode i.ch i.data
    exact ⟨_, exec_of_cause (.inl hf) hc, hfault, causeNumber_eq c ▸ hreg, hdata, hcfg, hloud, hpeak, hports, hdraws,
      State.raise_answers hf _ _ _ _⟩
  · have hrun : ({ s with port := rest } : State).fault = false := hf
    obtain ⟨hfault, hreg, hdata⟩ := State.raise_records hrun .illegalOp (opField w) (chField w) (dataField w)
    obtain ⟨hcfg, hloud, hpeak, ⟨hport, hrep, hreq, hwait⟩, hdraws⟩ :=
      State.raise_stays hrun .illegalOp (opField w) (chField w) (dataField w)
    exact ⟨_, (step_of_cmd hv hw hp).trans (acceptWord_of_error hd _), hfault, hreg, hdata, hcfg, hloud, hpeak, hport,
      hrep, hreq, hwait.trans hw, hdraws, State.raise_answers hrun _ _ _ _⟩

/-! ### Entering and leaving -/

/-- No command's own rule writes `STATUS.FAULT`, `FAULT` or `FDATA` (R242). -/
theorem Done.sameFault {i : Instr} {s t : State} (h : Done i s t) : SameFault s t := by
  cases i with
  | push ch data =>
    obtain ⟨-, -, -, -, hfault, -⟩ := pushed_stays s ch data
    subst h
    exact hfault
  | tprun ch data => rcases h with ⟨r, rest, -, rfl⟩ | ⟨rest, -, rfl⟩ <;> exact ⟨rfl, rfl, rfl⟩
  | _ => subst h; exact ⟨rfl, rfl, rfl⟩

/-- A command either leaves `STATUS.FAULT`, or enters the fault state by the fault entry of its first cause. -/
theorem exec_fault_cases {i : Instr} {s t : State} (h : exec i s = .next t) :
    t.fault = s.fault ∨ ∃ c, s.fault = false ∧ firstCause i s = some c ∧ t = s.raise c i.opcode i.ch i.data := by
  rcases exec_next h with ⟨-, rfl⟩ | hraise | ⟨-, -, hd⟩
  · exact .inl rfl
  · exact .inr hraise
  · exact .inl hd.sameFault.1

/-- The first cause of a command word (R73, R243): a word that is no command has `ILLEGAL_OP`. -/
def wordCause (w : CmdWord) (s : State) : Option Cause :=
  match decode w with
  | .ok i => firstCause i s
  | .error _ => some .illegalOp

theorem wordCause_of_ok {w : CmdWord} {i : Instr} (hd : decode w = .ok i) (s : State) :
    wordCause w s = firstCause i s := by
  rw [wordCause, hd]

theorem wordCause_of_error {w : CmdWord} {e : DecodeError} (hd : decode w = .error e) (s : State) :
    wordCause w s = some .illegalOp := by
  rw [wordCause, hd]

/-- What a step can do to `STATUS.FAULT` (R244): nothing, or clear it by `rst`, or enter the fault state by the fault entry of
the word it took. -/
theorem step_fault_cases {s t : State} (h : step s = .next t) :
    t.fault = s.fault ∨
    ((∃ d rest, s.port = .rst d :: rest) ∧ t.fault = false) ∨
    (∃ w rest c, s.port = .cmd w :: rest ∧ wordCause w s = some c ∧ s.fault = false ∧
      t = { s with port := rest }.raise c (opField w) (chField w) (dataField w)) := by
  rcases step_next h with ⟨-, rfl⟩ | ⟨d, rest, hp, rfl⟩ | ⟨w, rest, e, hp, -, hd, rfl⟩ | ⟨w, rest, i, hp, -, hd, hx⟩
  · exact .inl rfl
  · exact .inr (.inl ⟨⟨d, rest, hp⟩, rfl⟩)
  · rcases Bool.eq_false_or_eq_true s.fault with hf | hf
    · have hin : ({ s with port := rest } : State).fault = true := hf
      exact .inl (by rw [State.raise_of_fault hin, State.respond_fault])
    · exact .inr (.inr ⟨w, rest, _, hp, wordCause_of_error hd s, hf, rfl⟩)
  · rcases exec_fault_cases hx with hsame | ⟨c, hf, hc, rfl⟩
    · exact .inl hsame
    · obtain ⟨hop, hch, hdata⟩ := decode_fields hd
      exact .inr (.inr ⟨w, rest, c, hp, (wordCause_of_ok hd s).trans hc, hf, by rw [hop, hch, hdata]⟩)

/-- Settles O14: of the three things a step can do to `STATUS.FAULT`, only the fault entry sets it and only `rst` clears it. -/
theorem faultStateIsEnteredAndLeft : Obligations.FaultStateIsEnteredAndLeft := by
  intro s t h
  refine ⟨statusWord_getLsbD_zero t, fun hs ht => ?_, fun hs ht => ?_⟩
  · rcases step_fault_cases h with hsame | ⟨-, hclear⟩ | ⟨w, rest, c, hp, hc, hf, rfl⟩
    · simp [hs, ht] at hsame
    · simp [ht] at hclear
    · have hrun : ({ s with port := rest } : State).fault = false := hf
      obtain ⟨-, hreg, hdata⟩ := State.raise_records hrun c (opField w) (chField w) (dataField w)
      refine ⟨w, rest, c, hp, ?_, causeNumber_eq c ▸ hreg, hdata⟩
      cases hd : decode w with
      | ok i => exact (wordCause_of_ok hd s).symm.trans hc
      | error e => exact (Option.some.inj ((wordCause_of_error hd s).symm.trans hc)).symm
  · rcases step_fault_cases h with hsame | ⟨hrst, -⟩ | ⟨_, _, _, -, -, hf, -⟩
    · simp [hs, ht] at hsame
    · exact hrst
    · simp [hs] at hf

end Sys2Proof.Machine
end

section
/-! SUPPORT. The encoding: the decoder and the encoder are inverse to each other, on words and on their ten bytes (R54, R70). -/

namespace Sys2Proof

/-- The opcode of a command selects that command in the opcode map (R74). -/
theorem instrOf_fields (i : Instr) : instrOf i.opcode i.ch i.data = some i := by
  cases i <;> rfl

/-- Settles O1: the fields of the encoded word are the command's, and its opcode selects it. -/
theorem decodeOfEncodeIsTheCommand : Obligations.DecodeOfEncodeIsTheCommand := by
  intro i
  obtain ⟨hop, hch, hdata⟩ := fields_encode i
  simp [decode, hop, hch, hdata, instrOf_fields]

/-- Settles O2: a decoded command carries the three fields of its word, and the word is its three fields. -/
theorem encodeOfDecodeIsTheWord : Obligations.EncodeOfDecodeIsTheWord := by
  intro w i h
  obtain ⟨hop, hch, hdata⟩ := decode_fields h
  rw [encode, hop, hch, hdata, append_fields]

/-- Settles O3. -/
theorem specWordsDecode : Obligations.SpecWordsDecode := by
  unfold Obligations.SpecWordsDecode
  decide

/-- Ten bytes that make up a word that decodes are read as that command, and what follows is left over (R54). -/
theorem decodeBytes_wordBytes {w : CmdWord} {i : Instr} (h : decode w = .ok i) (rest : List Byte) :
    decodeBytes (wordBytes w ++ rest) = .ok (i, rest) := by
  obtain ⟨b0, b1, b2, b3, b4, b5, b6, b7, b8, b9, hb, hw⟩ := wordOfBytes_wordBytes w
  simp [hb, decodeBytes, hw, h]

/-- Below bit 64 the encoded word has the bits of `DATA` (R70). -/
theorem extractLsb'_encode (i : Instr) {start len : Nat} (h : start + len ≤ 64) :
    (encode i).extractLsb' start len = i.data.extractLsb' start len := by
  apply BitVec.eq_of_getLsbD_eq
  intro k hk
  rw [BitVec.getLsbD_extractLsb', BitVec.getLsbD_extractLsb', encode]
  congr 1
  show (i.opcode ++ i.ch ++ i.data : BitVec (8 + 8 + 64)).getLsbD _ = _
  rw [BitVec.getLsbD_append, if_pos (by omega)]

/-- The ten bytes of an encoded command (R54): its opcode, its `CH`, and the eight bytes of its `DATA`. -/
theorem wordBytes_encode (i : Instr) :
    wordBytes (encode i) = [i.opcode, i.ch, i.data.extractLsb' 56 8, i.data.extractLsb' 48 8, i.data.extractLsb' 40 8,
      i.data.extractLsb' 32 8, i.data.extractLsb' 24 8, i.data.extractLsb' 16 8, i.data.extractLsb' 8 8,
      i.data.extractLsb' 0 8] := by
  obtain ⟨hop, hch, -⟩ := fields_encode i
  unfold opField at hop
  unfold chField at hch
  simp [wordBytes, hop, hch, extractLsb'_encode]

/-- Settles O4. -/
theorem serialisedWordReadsBack : Obligations.SerialisedWordReadsBack := by
  intro i rest
  exact ⟨decodeBytes_wordBytes (decodeOfEncodeIsTheCommand i) rest, wordBytes_encode i⟩

end Sys2Proof
end

section
/-! SUPPORT. What a step is where no command runs: idle, refused, `rst`; and the reset state, which is legal in every sense. -/

namespace Sys2Proof.Machine

/-- Settles O5. -/
theorem stepRunsTheDecodedCommand : Obligations.StepRunsTheDecodedCommand := by
  intro s w rest i hv hw hp hd
  rw [step_of_cmd hv hw hp, acceptWord_of_ok hd]

/-- With nothing at the port a step is idle (R255). -/
theorem step_of_idle {s : State} (hp : s.port = []) : step s = .next s := by
  simp [step, hp]

/-- Parameters that are no instance have no step (R10, U7). -/
theorem step_of_invalid {s : State} {e : PortEvent} {rest : List PortEvent} (hp : s.port = e :: rest)
    (hv : s.cfg.valid = false) : step s = .refused .noInstance := by
  simp [step, hp, takeEvent, hv]

/-- In an instance `rst` is taken in every state (R270). -/
theorem step_of_rst {s : State} {d : Option CmdWord} {rest : List PortEvent} (hv : s.cfg.valid = true)
    (hp : s.port = .rst d :: rest) : step s = .next ({ s with port := rest } : State).rst := by
  simp [step, hp, takeEvent, hv]

/-- A command word presented while a `TPRUN` waits finds the block stuck (R281, U5). -/
theorem step_of_waiting {s : State} {w : CmdWord} {rest : List PortEvent} (hv : s.cfg.valid = true)
    (hw : s.waiting = true) (hp : s.port = .cmd w :: rest) : step s = .fault .resamplerSilent := by
  simp [step, hp, takeEvent, hv, hw]

/-- Settles O7. -/
theorem idleAndRefusedSteps : Obligations.IdleAndRefusedSteps := by
  intro s
  exact ⟨step_of_idle, fun _ _ => step_of_invalid⟩

/-! ### The reset state -/

/-- Every channel of the reset state is the reset channel. -/
theorem eq_reset_of_mem_resetOf {c : Config} {k : Channel} (h : k ∈ (State.resetOf c).chans) : k = Channel.reset :=
  List.eq_of_mem_replicate h

theorem State.resetOf_length (c : Config) : (State.resetOf c).chans.length = c.nch := List.length_replicate

/-- Every channel index of the reset state reads the reset channel. -/
theorem State.chan_resetOf (c : Config) (e : Nat) : (State.resetOf c).chan e = Channel.reset := by
  rcases Nat.lt_or_ge e (State.resetOf c).chans.length with h | h
  · exact eq_reset_of_mem_resetOf (State.chan_mem _ _ h)
  · exact State.chan_of_le _ _ h

/-- `STATUS` is 0 where no flag is set and no channel has its sample (R29). -/
theorem statusWord_eq_zero {s : State} (hf : s.fault = false) (hb : s.blockReady = false) (ho : s.ovr = false)
    (ht : s.tpTouched = false) (hp : ∀ k ∈ s.chans, k.pushed = false) : statusWord s = 0 := by
  have hopen : frameOpen s = false := List.any_eq_false.mpr fun k hk => by simp [hp k hk]
  simp [statusWord, statusByte, hf, hb, ho, ht, hopen]

theorem statusWord_resetOf (c : Config) : statusWord (State.resetOf c) = 0 :=
  statusWord_eq_zero rfl rfl rfl rfl fun _ hk => by rw [eq_reset_of_mem_resetOf hk]; rfl

/-- Settles O8: the state after is the reset state of the instance, but for the ports. -/
theorem rstRestoresEveryRegister : Obligations.RstRestoresEveryRegister := by
  intro s d rest hv hp
  refine ⟨_, step_of_rst hv hp, rfl, State.resetOf_length s.cfg, fun k hk => ?_, rfl, rfl, rfl, statusWord_resetOf s.cfg,
    rfl, rfl, rfl, rfl, rfl, rfl, rfl, rfl, rfl, rfl, rfl, rfl, rfl⟩
  rw [eq_reset_of_mem_resetOf hk]
  exact ⟨rfl, rfl, rfl, rfl, fun _ => rfl, rfl, rfl⟩

/-- Settles O9. -/
theorem constructedStateIsTheResetTable : Obligations.ConstructedStateIsTheResetTable := by
  refine ⟨rfl, fun c => ⟨fun e => ?_, State.resetOf_length c, rfl, rfl, rfl, statusWord_resetOf c, rfl, rfl, rfl, rfl, rfl⟩⟩
  rw [State.chan_resetOf]
  exact ⟨rfl, rfl, rfl, rfl, fun _ => rfl, rfl, rfl⟩

/-- A frame with a channel that lacks its sample is not full (R131). -/
theorem State.frameFull_eq_false {s : State} {k : Channel} (hk : k ∈ s.chans) (hp : k.pushed = false) :
    s.frameFull = false :=
  List.all_eq_false.mpr ⟨k, hk, by simp [hp]⟩

/-- The reset state of an instance has its shape: no channel has its sample, and there is one (R8). -/
theorem State.shaped_resetOf {c : Config} (h : c.valid = true) : (State.resetOf c).Shaped := by
  obtain ⟨-, hn, -, hN, -⟩ := valid_bounds h
  have hmem : Channel.reset ∈ (State.resetOf c).chans := List.mem_replicate.mpr ⟨by omega, rfl⟩
  exact ⟨h, State.resetOf_length c, (by omega : 0 < c.bufLen), Nat.zero_le _,
    State.frameFull_eq_false hmem rfl⟩

theorem State.stored_resetOf (c : Config) : (State.resetOf c).Stored :=
  ⟨fun k hk => by rw [eq_reset_of_mem_resetOf hk]; exact ⟨rfl, rfl⟩, rfl, rfl⟩

theorem State.peakLegal_resetOf (c : Config) : (State.resetOf c).PeakLegal :=
  ⟨by show isNan 0 = false; decide, by show sign 0 = false; decide⟩

theorem State.recordLegal_resetOf (c : Config) : (State.resetOf c).RecordLegal := ⟨rfl, rfl⟩

theorem State.latchesLegal_resetOf (c : Config) : (State.resetOf c).LatchesLegal :=
  ⟨nofun, fun _ => ⟨rfl, rfl, rfl, fun k hk => by rw [eq_reset_of_mem_resetOf hk]; rfl⟩⟩

theorem State.cursorLegal_resetOf (c : Config) : (State.resetOf c).CursorLegal := fun _ h => absurd rfl h

/-- `+0.0` is no signalling NaN. -/
theorem notSignalling_zero : notSignalling 0 := by
  unfold notSignalling
  decide

theorem State.filtersQuiet_resetOf (c : Config) : (State.resetOf c).FiltersQuiet := fun k hk => by
  rw [eq_reset_of_mem_resetOf hk]
  exact ⟨notSignalling_zero, notSignalling_zero, notSignalling_zero, notSignalling_zero⟩

/-- Settles O10. -/
theorem resetStateIsLegal : Obligations.ResetStateIsLegal := by
  intro c h
  exact ⟨State.shaped_resetOf h, State.stored_resetOf c, State.peakLegal_resetOf c, State.recordLegal_resetOf c,
    State.latchesLegal_resetOf c, State.cursorLegal_resetOf c, State.filtersQuiet_resetOf c⟩

end Sys2Proof.Machine
end

section
/-! SUPPORT. What a command can do to each side of the block, each said once: the side it leaves alone, the effects it can have on
the other, and the two inductions over steps that the invariants are proved by. -/

namespace Sys2Proof.Machine

/-! ### Responding, faulting and reading -/

theorem SameLoudness.refl (s : State) : SameLoudness s s := ⟨rfl, rfl, rfl, rfl, rfl, rfl⟩

theorem SameTruePeak.refl (s : State) : SameTruePeak s s := ⟨rfl, rfl, rfl, rfl⟩

/-- Raising a cause, in the fault state or outside it, leaves the parameters and both sides of the block (R245, R246). -/
theorem State.raise_sides (s : State) (c : Cause) (op ch : BitVec 8) (data : BitVec 64) :
    (s.raise c op ch data).cfg = s.cfg ∧ SameLoudness s (s.raise c op ch data) ∧ SameTruePeak s (s.raise c op ch data) ∧
      SamePorts s (s.raise c op ch data) := by
  rcases Bool.eq_false_or_eq_true s.fault with hf | hf
  · rw [State.raise_of_fault hf]
    exact ⟨rfl, .refl s, .refl s, rfl, rfl, rfl, rfl⟩
  · rw [State.raise_of_running hf]
    exact ⟨rfl, ⟨rfl, rfl, rfl, rfl, rfl, rfl⟩, ⟨rfl, rfl, rfl, rfl⟩, rfl, rfl, rfl, rfl⟩

/-- Raising a cause gives the response 0, in the fault state or outside it (R245, R246). -/
theorem State.answers_raise (s : State) (c : Cause) (op ch : BitVec 8) (data : BitVec 64) :
    Answers s (s.raise c op ch data) 0 := by
  rcases Bool.eq_false_or_eq_true s.fault with hf | hf
  · rw [State.raise_of_fault hf]
    exact s.respond_answers 0 s rfl
  · exact State.raise_answers hf c op ch data

/-- `exec_next` with its first two cases as one: in the fault state to respond 0 is to raise, whatever the cause (R246). -/
theorem exec_next_cases {i : Instr} {s t : State} (h : exec i s = .next t) :
    (∃ c, t = s.raise c i.opcode i.ch i.data) ∨
    (firstCause i s = none ∧ (s.fault = false ∨ runsInFault i.opcode = true) ∧ Done i s t) := by
  rcases exec_next h with ⟨hf, rfl⟩ | ⟨c, -, -, rfl⟩ | hdone
  · exact .inl ⟨.illegalOp, (State.raise_of_fault hf _ _ _ _).symm⟩
  · exact .inl ⟨c, rfl⟩
  · exact .inr hdone

/-- The read commands only respond, some of them with a free value drawn (R56). -/
theorem Done.of_read {i : Instr} {s t : State} (hi : readCommand i = true) (h : Done i s t) :
    ∃ v, t = s.respond v ∨ t = s.drawn.respond v := by
  cases i with
  | frst _ _ | fproc _ _ | push _ _ | blkack _ _ | crst _ _ | mrst _ _ | tpin _ _ | tprun _ _ | tprst _ _ => cases hi
  | msq _ _ | wsum _ _ => exact ⟨_, .inr h⟩
  | _ => exact ⟨_, .inl h⟩

/-! ### The side a command leaves alone -/

/-- The true-peak commands and the read commands leave the loudness side alone. -/
theorem Done.sameLoudness {i : Instr} {s t : State} (hi : truePeakCommand i = true ∨ readCommand i = true)
    (h : Done i s t) : SameLoudness s t := by
  rcases hi with hi | hi
  · cases i with
    | tprun ch data => rcases h with ⟨r, rest, -, rfl⟩ | ⟨rest, -, rfl⟩ <;> exact ⟨rfl, rfl, rfl, rfl, rfl, rfl⟩
    | tpin _ _ | tprd _ _ | tprst _ _ => subst h; exact ⟨rfl, rfl, rfl, rfl, rfl, rfl⟩
    | _ => cases hi
  · obtain ⟨v, rfl | rfl⟩ := h.of_read hi <;> exact ⟨rfl, rfl, rfl, rfl, rfl, rfl⟩

/-- The loudness commands and the read commands leave the true-peak side and the ports alone. -/
theorem Done.sameTruePeak {i : Instr} {s t : State} (hi : loudnessCommand i = true ∨ readCommand i = true)
    (h : Done i s t) : SameTruePeak s t ∧ SamePorts s t := by
  rcases hi with hi | hi
  · cases i with
    | nop _ _ | tpin _ _ | tprun _ _ | tprd _ _ | tprst _ _ | rdreg _ _ => cases hi
    | push ch data =>
      obtain ⟨-, -, -, hports, -, hpeak⟩ := pushed_stays s ch data
      subst h
      exact ⟨hpeak, hports⟩
    | _ => subst h; exact ⟨⟨rfl, rfl, rfl, rfl⟩, rfl, rfl, rfl, rfl⟩
  · obtain ⟨v, rfl | rfl⟩ := h.of_read hi <;> exact ⟨⟨rfl, rfl, rfl, rfl⟩, rfl, rfl, rfl, rfl⟩

/-- No command changes a parameter (R35). -/
theorem Done.cfg {i : Instr} {s t : State} (h : Done i s t) : t.cfg = s.cfg := by
  cases i with
  | push ch data =>
    subst h
    exact (pushed_stays s ch data).1
  | tprun ch data => rcases h with ⟨r, rest, -, rfl⟩ | ⟨rest, -, rfl⟩ <;> rfl
  | _ => subst h; rfl

/-- Settles O25: a raised cause leaves the loudness side, and so does the command's own rule. -/
theorem truePeakCommandsLeaveLoudnessAlone : Obligations.TruePeakCommandsLeaveLoudnessAlone := by
  intro i s t hi h
  rcases exec_next_cases h with ⟨c, rfl⟩ | ⟨-, -, hd⟩
  · exact (s.raise_sides c i.opcode i.ch i.data).2.1
  · exact hd.sameLoudness (.inl hi)

/-- Settles O26: a raised cause leaves the true-peak side and the ports, and so does the command's own rule. -/
theorem loudnessCommandsLeaveTruePeakAlone : Obligations.LoudnessCommandsLeaveTruePeakAlone := by
  intro i s t hi h
  rcases exec_next_cases h with ⟨c, rfl⟩ | ⟨-, -, hd⟩
  · exact (s.raise_sides c i.opcode i.ch i.data).2.2
  · exact hd.sameTruePeak (.inl hi)

/-- Settles O12: a command's own rule writes none of the three, and where no condition holds nothing else is done. -/
theorem properCommandRaisesNothing : Obligations.ProperCommandRaisesNothing := by
  intro i s t ⟨hf, hc⟩ h
  rcases exec_next h with ⟨hf', -⟩ | ⟨c, -, hc', -⟩ | ⟨-, -, hd⟩
  · simp [hf] at hf'
  · simp [hc] at hc'
  · exact hd.sameFault

/-- Settles O27: a read command where no condition holds only responds. -/
theorem readCommandsHaveNoSideEffects : Obligations.ReadCommandsHaveNoSideEffects := by
  intro i s hi hp
  obtain ⟨t, hx, hd⟩ := exec_proper hp (by rintro ch data rfl; cases hi)
  obtain ⟨hpeak, hports⟩ := hd.sameTruePeak (.inr hi)
  exact ⟨t, hx, ⟨hd.cfg, hd.sameLoudness (.inr hi), hpeak, hd.sameFault⟩, hports⟩

/-! ### The effects on each side -/

/-- What a command's own rule can make of the loudness side (R110, R111, R131, R142 to R144). -/
inductive LoudnessEffect (s : State) : State → Prop
  | stay : LoudnessEffect s s
  | frst (c : Nat) : LoudnessEffect s (s.updChan c Channel.clearFilter)
  | fproc (c : Nat) (x : F64) : LoudnessEffect s (s.updChan c fun k => (cascade s.draws s.cfg k x).1)
  | push (ch : BitVec 8) (x : F64) (hlt : ch.toNat < s.cfg.nch) (lacks : (s.chan ch.toNat).pushed = false) :
    LoudnessEffect s (pushed s ch x)
  | blkack : LoudnessEffect s { s with blockReady := false, ovr := false }
  | crst (c : Nat) : LoudnessEffect s (s.updChan c fun k => { k.clearFilter with buf := [] })
  | mrst : LoudnessEffect s s.meterReset

/-- What a command's own rule can make of the true-peak side (R171 to R175). -/
inductive TruePeakEffect (s : State) : State → Prop
  | stay : TruePeakEffect s s
  | tpin (v : F64) (room : s.tpFill.toNat ≠ s.cfg.tpCap) :
    TruePeakEffect s { s with tpi := s.tpi.write s.tpFill.toNat v, tpFill := s.tpFill + 1 }
  | run (r : Reply) : TruePeakEffect s (s.finishRun r)
  | tprst : TruePeakEffect s { s with tpGain := 0, tpFill := 0, tpTouched := false }

theorem LoudnessEffect.cfg {s u : State} (h : LoudnessEffect s u) : u.cfg = s.cfg := by
  cases h with
  | push ch x => exact (pushed_stays s ch x).1
  | _ => rfl

theorem TruePeakEffect.cfg {s u : State} (h : TruePeakEffect s u) : u.cfg = s.cfg := by
  cases h <;> rfl

/-- A `PUSH` for which no condition holds names a channel that still lacks its sample (R131). -/
theorem push_conditions {s : State} {ch : BitVec 8} {x : BitVec 64} (h : firstCause (.push ch x) s = none) :
    ch.toNat < s.cfg.nch ∧ (s.chan ch.toNat).pushed = false := by
  have hn : operandCause (chUseOf (.push ch x)) (dataUseOf s (.push ch x)) s.cfg.nch ch x = none := by
    cases ho : operandCause (chUseOf (.push ch x)) (dataUseOf s (.push ch x)) s.cfg.nch ch x with
    | none => rfl
    | some c => simp [firstCause_of_operand (i := .push ch x) ho] at h
  refine ⟨?_, by simpa [ownCause] using ownCause_of_none h⟩
  simpa [operandCause, chUseOf, dataUseOf, ChUse.reserved, DataUse.reserved, ChUse.badChannel, ChUse.badIndex,
    DataUse.badIndex] using hn

/-- Every command's own rule has one of the effects on the loudness side. -/
theorem Done.loudnessEffect {i : Instr} {s t : State} (hc : firstCause i s = none) (h : Done i s t) :
    ∃ u, LoudnessEffect s u ∧ SameLoudness u t := by
  by_cases hi : truePeakCommand i = true ∨ readCommand i = true
  · exact ⟨s, .stay, h.sameLoudness hi⟩
  · cases i with
    | frst ch data => subst h; exact ⟨_, .frst ch.toNat, .refl _⟩
    | fproc ch data => subst h; exact ⟨_, .fproc ch.toNat data, .refl _⟩
    | push ch data =>
      obtain ⟨hlt, lacks⟩ := push_conditions hc
      subst h
      exact ⟨_, .push ch data hlt lacks, .refl _⟩
    | blkack ch data => subst h; exact ⟨_, .blkack, .refl _⟩
    | crst ch data => subst h; exact ⟨_, .crst ch.toNat, .refl _⟩
    | mrst ch data => subst h; exact ⟨_, .mrst, .refl _⟩
    | _ => simp [truePeakCommand, readCommand] at hi

/-- Every command's own rule has one of the effects on the true-peak side. -/
theorem Done.truePeakEffect {i : Instr} {s t : State} (hc : firstCause i s = none) (h : Done i s t) :
    ∃ u, TruePeakEffect s u ∧ SameTruePeak u t := by
  by_cases hi : loudnessCommand i = true ∨ readCommand i = true
  · exact ⟨s, .stay, (h.sameTruePeak hi).1⟩
  · cases i with
    | tpin ch data =>
      have room : s.tpFill.toNat ≠ s.cfg.tpCap := by simpa [ownCause] using ownCause_of_none hc
      subst h
      exact ⟨_, .tpin _ room, .refl _⟩
    | tprun ch data =>
      rcases h with ⟨r, rest, -, rfl⟩ | ⟨rest, -, rfl⟩
      · exact ⟨_, .run r, rfl, rfl, rfl, rfl⟩
      · exact ⟨s, .stay, rfl, rfl, rfl, rfl⟩
    | tprst ch data => subst h; exact ⟨_, .tprst, .refl _⟩
    | _ => simp [loudnessCommand, readCommand] at hi

/-! ### The induction over steps -/

section Step
variable {P : State → Prop} {s t : State}

/-- A property of the parameters and the two sides that survives `rst` and every command's own rule survives every step. -/
theorem step_keeps (congr : ∀ {s t : State}, t.cfg = s.cfg → SameLoudness s t → SameTruePeak s t → P s → P t)
    (rst : ∀ {s : State}, P s → P s.rst)
    (done : ∀ {i : Instr} {s t : State}, P s → firstCause i s = none → Done i s t → P t)
    (hs : P s) (h : step s = .next t) : P t := by
  have take : ∀ rest, P { s with port := rest } := fun rest =>
    congr (s := s) rfl ⟨rfl, rfl, rfl, rfl, rfl, rfl⟩ ⟨rfl, rfl, rfl, rfl⟩ hs
  have raise : ∀ {s : State} c op ch data, P s → P (s.raise c op ch data) := fun {s} c op ch data hs => by
    obtain ⟨hcfg, hloud, hpeak, -⟩ := s.raise_sides c op ch data
    exact congr hcfg hloud hpeak hs
  rcases step_next h with ⟨-, rfl⟩ | ⟨d, rest, -, rfl⟩ | ⟨w, rest, e, -, -, -, rfl⟩ | ⟨w, rest, i, -, -, -, hx⟩
  · exact hs
  · exact rst (take rest)
  · exact raise _ _ _ _ (take rest)
  · rcases exec_next_cases hx with ⟨c, rfl⟩ | ⟨hc, -, hd⟩
    · exact raise _ _ _ _ (take rest)
    · exact done (take rest) hc hd

/-- A property of the parameters and the loudness side that holds of the reset state and survives every effect survives every
step. -/
theorem step_keeps_loudness (congr : ∀ {s t : State}, t.cfg = s.cfg → SameLoudness s t → P s → P t)
    (reset : ∀ {s : State}, P s → P (State.resetOf s.cfg)) (effect : ∀ {s u : State}, P s → LoudnessEffect s u → P u)
    (hs : P s) (h : step s = .next t) : P t :=
  step_keeps (fun hcfg hloud _ => congr hcfg hloud)
    (fun {s} hs => congr (s := State.resetOf s.cfg) rfl ⟨rfl, rfl, rfl, rfl, rfl, rfl⟩ (reset hs))
    (fun hs hc hd => by
      obtain ⟨u, hu, hloud⟩ := hd.loudnessEffect hc
      exact congr (hd.cfg.trans hu.cfg.symm) hloud (effect hs hu))
    hs h

/-- A property of the parameters and the true-peak side that holds of the reset state and survives every effect survives every
step. -/
theorem step_keeps_truePeak (congr : ∀ {s t : State}, t.cfg = s.cfg → SameTruePeak s t → P s → P t)
    (reset : ∀ {s : State}, P s → P (State.resetOf s.cfg)) (effect : ∀ {s u : State}, P s → TruePeakEffect s u → P u)
    (hs : P s) (h : step s = .next t) : P t :=
  step_keeps (fun hcfg _ hpeak => congr hcfg hpeak)
    (fun {s} hs => congr (s := State.resetOf s.cfg) rfl ⟨rfl, rfl, rfl, rfl⟩ (reset hs))
    (fun hs hc hd => by
      obtain ⟨u, hu, hpeak⟩ := hd.truePeakEffect hc
      exact congr (hd.cfg.trans hu.cfg.symm) hpeak (effect hs hu))
    hs h

end Step

end Sys2Proof.Machine
end

section
/-! SUPPORT. The invariants of every step: shape, storage, latches, cursor and filters on the loudness side, fill, storage and peak
on the true-peak side. -/

namespace Sys2Proof.Machine

/-! ### What a `PUSH` can do -/

/-- The frame closed: no channel has its sample, and the cursor is at `wp` (R132). -/
def State.openFrame (s : State) (wp : BitVec 32) : State :=
  { s with chans := s.chans.map fun k => { k with pushed := false }, wp := wp }

@[simp] theorem State.openFrame_length (s : State) (wp : BitVec 32) : (s.openFrame wp).chans.length = s.chans.length :=
  List.length_map _

/-- No channel of a closed frame has its sample. -/
theorem State.openFrame_pushed {s : State} {wp : BitVec 32} {k : Channel} (hk : k ∈ (s.openFrame wp).chans) :
    k.pushed = false := by
  obtain ⟨k0, -, rfl⟩ := List.mem_map.mp hk
  rfl

@[simp] theorem State.storeSample_length (s : State) (c : Nat) (x : F64) :
    (s.storeSample c x).chans.length = s.chans.length := by
  simp [State.storeSample]

@[simp] theorem State.blockComplete_length (s : State) : s.blockComplete.chans.length = s.chans.length := by
  simp [State.blockComplete_chans]

/-- The four things a `PUSH` can do (R131, R132, R133, R135). -/
theorem pushed_cases (s : State) (ch : BitVec 8) (x : BitVec 64) :
    ((s.storeSample ch.toNat x).frameFull = false ∧ pushed s ch x = s.storeSample ch.toNat x) ∨
    ((s.storeSample ch.toNat x).frameFull = true ∧ (s.wp + 1).toNat ≠ s.cfg.bufLen ∧
      pushed s ch x = (s.storeSample ch.toNat x).openFrame (s.wp + 1)) ∨
    ((s.storeSample ch.toNat x).frameFull = true ∧ (s.wp + 1).toNat = s.cfg.bufLen ∧ s.cfg.mode = .circ ∧
      pushed s ch x = (s.storeSample ch.toNat x).openFrame 0) ∨
    ((s.storeSample ch.toNat x).frameFull = true ∧ (s.wp + 1).toNat = s.cfg.bufLen ∧ s.cfg.mode = .block ∧
      pushed s ch x = ((s.storeSample ch.toNat x).openFrame (s.wp + 1)).blockComplete) := by
  unfold pushed
  rcases Bool.eq_false_or_eq_true (s.storeSample ch.toNat x).frameFull with hfull | hfull
  · rw [if_pos hfull]
    rcases (s.storeSample ch.toNat x).frameCommit_cases with ⟨hw, e⟩ | ⟨hw, hm, e⟩ | ⟨hw, hm, e⟩
    · exact .inr (.inl ⟨hfull, hw, e⟩)
    · exact .inr (.inr (.inl ⟨hfull, hw, hm, e⟩))
    · exact .inr (.inr (.inr ⟨hfull, hw, hm, e⟩))
  · exact .inl ⟨hfull, if_neg (by simp [hfull])⟩

/-- A property of every channel survives every effect on the loudness side if it survives what each does to one channel. -/
theorem LoudnessEffect.forall_chans {Q : Channel → Prop} {s u : State} (h : LoudnessEffect s u) (hs : ∀ k ∈ s.chans, Q k)
    (reset : Q Channel.reset) (clear : ∀ k, Q k → Q k.clearFilter)
    (crst : ∀ k, Q k → Q { k.clearFilter with buf := [] })
    (filter : ∀ k x, Q k → Q (cascade s.draws s.cfg k x).1)
    (store : ∀ k x, Q k → Q { (cascade s.draws s.cfg k x).1 with
      buf := k.buf.write s.wp.toNat (cascade s.draws s.cfg k x).2, pushed := true })
    (unmark : ∀ k, Q k → Q { k with pushed := false })
    (complete : ∀ k v, Q k → s.cfg.mode = .block →
      Q { k with blkMs := v, buf := shiftBuf s.cfg.hop s.cfg.retained 0 k.buf }) :
    ∀ k ∈ u.chans, Q k := by
  cases h with
  | stay => exact hs
  | frst c => exact forall_modify hs fun k hk => clear k (hs k hk)
  | fproc c x => exact forall_modify hs fun k hk => filter k x (hs k hk)
  | push ch x => exact pushed_forall s ch x hs (fun k => store k x) unmark fun k v hk hm _ => complete k v hk hm
  | blkack => exact hs
  | crst c => exact forall_modify hs fun k hk => crst k (hs k hk)
  | mrst =>
    intro k hk
    obtain ⟨-, -, rfl⟩ := List.mem_map.mp hk
    exact reset

/-! ### The shape of the loudness side -/

/-- The part of `State.Shaped` that speaks of the loudness side. -/
structure State.LoudnessShaped (s : State) : Prop where
  valid : s.cfg.valid = true
  channels : s.chans.length = s.cfg.nch
  cursor : s.wp.toNat < s.cfg.bufLen
  frame : s.frameFull = false

theorem State.Shaped.loudness {s : State} (h : s.Shaped) : s.LoudnessShaped := ⟨h.valid, h.channels, h.cursor, h.frame⟩

namespace State.LoudnessShaped
variable {s t : State}

theorem congr (hcfg : t.cfg = s.cfg) (h : SameLoudness s t) (hs : s.LoudnessShaped) : t.LoudnessShaped := by
  obtain ⟨hchans, hwp, -⟩ := h
  exact ⟨hcfg ▸ hs.valid, by rw [hchans, hcfg, hs.channels], by rw [hwp, hcfg]; exact hs.cursor,
    by rw [State.frameFull, hchans]; exact hs.frame⟩

theorem resetOf (hs : s.LoudnessShaped) : (State.resetOf s.cfg).LoudnessShaped := (State.shaped_resetOf hs.valid).loudness

/-- The cursor's increment does not overflow (R204 (1)). -/
theorem wp_succ (hs : s.LoudnessShaped) : (s.wp + 1).toNat = s.wp.toNat + 1 :=
  State.Shaped.wp_succ (s := { s with tpFill := 0 }) ⟨hs.valid, hs.channels, hs.cursor, Nat.zero_le _, hs.frame⟩

/-- The cursor after a block is `OV`, which 32 bits hold (R133). -/
theorem retained_toNat (hs : s.LoudnessShaped) : (BitVec.ofNat 32 s.cfg.retained).toNat = s.cfg.retained := by
  have hN : s.cfg.bufLen < 2 ^ 32 := (valid_bounds hs.valid).2.2.2.2.1
  have hle : s.cfg.retained ≤ s.cfg.bufLen := Nat.sub_le _ _
  rw [BitVec.toNat_ofNat]
  exact Nat.mod_eq_of_lt (by omega)

theorem updChan (hs : s.LoudnessShaped) (c : Nat) {f : Channel → Channel} (hf : ∀ k, (f k).pushed = k.pushed) :
    (s.updChan c f).LoudnessShaped :=
  ⟨hs.valid, by simpa using hs.channels, hs.cursor, (State.frameFull_updChan hf).trans hs.frame⟩

/-- A state with the parameters and as many channels, none of which has its sample, has the shape if its cursor is in range. -/
theorem of_no_sample (hs : s.LoudnessShaped) (hcfg : t.cfg = s.cfg) (hlen : t.chans.length = s.chans.length)
    (hp : ∀ k ∈ t.chans, k.pushed = false) (hwp : t.wp.toNat < s.cfg.bufLen) : t.LoudnessShaped := by
  have hn : 1 ≤ s.cfg.nch := (valid_bounds hs.valid).2.1
  have hpos : 0 < t.chans.length := by rw [hlen, hs.channels]; exact hn
  exact ⟨hcfg ▸ hs.valid, by rw [hlen, hcfg, hs.channels], hcfg ▸ hwp,
    State.frameFull_eq_false (List.getElem_mem hpos) (hp _ (List.getElem_mem hpos))⟩

theorem pushed (hs : s.LoudnessShaped) (ch : BitVec 8) (x : BitVec 64) : (pushed s ch x).LoudnessShaped := by
  have hcur := hs.cursor
  have hsucc := hs.wp_succ
  rcases pushed_cases s ch x with ⟨hfull, e⟩ | ⟨-, hne, e⟩ | ⟨-, -, -, e⟩ | ⟨-, -, hm, e⟩ <;> rw [e]
  · exact ⟨hs.valid, (State.storeSample_length s ch.toNat x).trans hs.channels, hs.cursor, hfull⟩
  · refine hs.of_no_sample rfl (by simp) (fun _ => State.openFrame_pushed) ?_
    show (s.wp + 1).toNat < s.cfg.bufLen
    omega
  · exact hs.of_no_sample rfl (by simp) (fun _ => State.openFrame_pushed) (by show 0 < s.cfg.bufLen; omega)
  · refine hs.of_no_sample rfl (by simp) (fun k hk => ?_) ?_
    · rw [State.blockComplete_chans] at hk
      obtain ⟨i, hi, rfl⟩ := List.mem_mapIdx.mp hk
      exact State.openFrame_pushed (k := ((s.storeSample ch.toNat x).openFrame (s.wp + 1)).chans[i]) (List.getElem_mem hi)
    · show (BitVec.ofNat 32 s.cfg.retained).toNat < s.cfg.bufLen
      rw [hs.retained_toNat]
      exact (hop_bounds hs.valid hm).1

theorem effect (hs : s.LoudnessShaped) (h : LoudnessEffect s t) : t.LoudnessShaped := by
  cases h with
  | stay => exact hs
  | frst c => exact hs.updChan c fun _ => rfl
  | fproc c x => exact hs.updChan c fun _ => rfl
  | push ch x => exact hs.pushed ch x
  | blkack => exact ⟨hs.valid, hs.channels, hs.cursor, hs.frame⟩
  | crst c => exact hs.updChan c fun _ => rfl
  | mrst =>
    refine hs.of_no_sample rfl (List.length_map _) (fun k hk => ?_) (Nat.lt_of_le_of_lt (Nat.zero_le _) hs.cursor)
    obtain ⟨-, -, rfl⟩ := List.mem_map.mp hk
    rfl

theorem step (hs : s.LoudnessShaped) (h : step s = .next t) : t.LoudnessShaped := step_keeps_loudness congr resetOf effect hs h

end State.LoudnessShaped

/-! ### The fill count -/

/-- The part of `State.Shaped` that speaks of the true-peak side. -/
structure State.FillLegal (s : State) : Prop where
  valid : s.cfg.valid = true
  fill : s.tpFill.toNat ≤ s.cfg.tpCap

namespace State.FillLegal
variable {s t : State}

theorem congr (hcfg : t.cfg = s.cfg) (h : SameTruePeak s t) (hs : s.FillLegal) : t.FillLegal := by
  obtain ⟨-, -, hfill, -⟩ := h
  exact ⟨hcfg ▸ hs.valid, by rw [hfill, hcfg]; exact hs.fill⟩

theorem resetOf (hs : s.FillLegal) : (State.resetOf s.cfg).FillLegal := ⟨hs.valid, Nat.zero_le _⟩

/-- The fill count's increment does not overflow (R204). -/
theorem fill_succ (hs : s.FillLegal) (room : s.tpFill.toNat ≠ s.cfg.tpCap) : (s.tpFill + 1).toNat = s.tpFill.toNat + 1 := by
  have hcap : s.cfg.tpCap < 2 ^ 32 := (valid_bounds hs.valid).2.2.2.2.2.2.2
  have hfill := hs.fill
  simp only [BitVec.toNat_add, BitVec.ofNat_eq_ofNat, BitVec.toNat_ofNat]
  omega

theorem effect (hs : s.FillLegal) (h : TruePeakEffect s t) : t.FillLegal := by
  cases h with
  | stay => exact hs
  | tpin v room =>
    refine ⟨hs.valid, ?_⟩
    show (s.tpFill + 1).toNat ≤ s.cfg.tpCap
    rw [hs.fill_succ room]
    exact Nat.lt_of_le_of_ne hs.fill room
  | run r => exact ⟨hs.valid, Nat.zero_le _⟩
  | tprst => exact ⟨hs.valid, Nat.zero_le _⟩

theorem step (hs : s.FillLegal) (h : step s = .next t) : t.FillLegal := step_keeps_truePeak congr resetOf effect hs h

end State.FillLegal

/-- Settles O17: the two sides of the shape are kept one by one. -/
theorem stepKeepsShape : Obligations.StepKeepsShape := by
  intro s t hs h
  have hloud := hs.loudness.step h
  exact ⟨hloud.valid, hloud.channels, hloud.cursor, (State.FillLegal.step ⟨hs.valid, hs.fill⟩ h).fill, hloud.frame⟩

/-! ### The storage spaces -/

/-- The buffer of a channel is canonical and lists nothing at or past `n` (R50). -/
def Channel.Stored (n : Nat) (k : Channel) : Prop := k.buf.wf = true ∧ k.buf.below n = true

/-- Every effect on the loudness side keeps the buffers stored: a sample goes to the cursor, and the shift stays below `N`. -/
theorem LoudnessEffect.stored {s u : State} (hs : s.LoudnessShaped) (h : LoudnessEffect s u)
    (hb : ∀ k ∈ s.chans, k.Stored s.cfg.bufLen) : ∀ k ∈ u.chans, k.Stored s.cfg.bufLen := by
  refine h.forall_chans hb ⟨rfl, rfl⟩ (fun _ hk => hk) (fun _ _ => ⟨rfl, rfl⟩) (fun _ _ hk => hk) (fun k x hk => ?_)
    (fun _ hk => hk) (fun k v hk hm => ?_)
  · exact ⟨Mem.wf_write _ _ hk.1, Mem.below_write _ hs.cursor hk.2⟩
  · have hle : s.cfg.retained ≤ s.cfg.bufLen := Nat.sub_le _ _
    exact ⟨shiftBuf_wf _ _ _ _ hk.1, shiftBuf_below _ _ _ _ _ (by omega) hk.2⟩

/-- The buffers of a shaped state stay stored. -/
theorem bufs_stored_step {s t : State} (hs : s.LoudnessShaped) (hb : ∀ k ∈ s.chans, k.Stored s.cfg.bufLen)
    (h : step s = .next t) : ∀ k ∈ t.chans, k.Stored t.cfg.bufLen := by
  refine (step_keeps_loudness (P := fun s => s.LoudnessShaped ∧ ∀ k ∈ s.chans, k.Stored s.cfg.bufLen)
    ?_ ?_ ?_ ⟨hs, hb⟩ h).2
  · intro s t hcfg hloud ⟨hs, hb⟩
    exact ⟨hs.congr hcfg hloud, by rw [hloud.1, hcfg]; exact hb⟩
  · exact fun ⟨hs, _⟩ => ⟨hs.resetOf, fun k hk => by rw [eq_reset_of_mem_resetOf hk]; exact ⟨rfl, rfl⟩⟩
  · exact fun ⟨hs, hb⟩ he => ⟨hs.effect he, by rw [he.cfg]; exact he.stored hs hb⟩

/-- `TPI` stays stored: an element is only ever written at the fill count, which has room. -/
theorem tpi_stored_step {s t : State} (hs : s.FillLegal) (hb : s.tpi.wf = true ∧ s.tpi.below s.cfg.tpCap = true)
    (h : step s = .next t) : t.tpi.wf = true ∧ t.tpi.below t.cfg.tpCap = true := by
  refine (step_keeps_truePeak (P := fun s => s.FillLegal ∧ s.tpi.wf = true ∧ s.tpi.below s.cfg.tpCap = true)
    ?_ ?_ ?_ ⟨hs, hb⟩ h).2
  · intro s t hcfg hpeak ⟨hs, hb⟩
    exact ⟨hs.congr hcfg hpeak, by rw [hpeak.2.1, hcfg]; exact hb⟩
  · exact fun ⟨hs, _⟩ => ⟨hs.resetOf, rfl, rfl⟩
  · intro s u ⟨hs, hwf, hbelow⟩ he
    refine ⟨hs.effect he, ?_⟩
    cases he with
    | stay => exact ⟨hwf, hbelow⟩
    | tpin v room => exact ⟨Mem.wf_write _ _ hwf, Mem.below_write _ (Nat.lt_of_le_of_ne hs.fill room) hbelow⟩
    | run r => exact ⟨hwf, hbelow⟩
    | tprst => exact ⟨hwf, hbelow⟩

/-- Settles O18: the buffers and `TPI` are kept one by one. -/
theorem stepKeepsStorage : Obligations.StepKeepsStorage := by
  intro s t hs hb h
  exact ⟨bufs_stored_step hs.loudness hb.bufs h, tpi_stored_step ⟨hs.valid, hs.fill⟩ hb.tpi h⟩

/-! ### The peak -/

/-- Settles O19: a scan keeps the peak legal, and otherwise it is only ever cleared. -/
theorem stepKeepsPeakLegal : Obligations.StepKeepsPeakLegal := by
  intro s t hs h
  refine step_keeps_truePeak (P := State.PeakLegal) ?_ (fun {s} _ => State.peakLegal_resetOf s.cfg) ?_ hs h
  · intro s t _ hpeak hs
    rw [State.PeakLegal, hpeak.1]
    exact hs
  · intro s u hs he
    cases he with
    | stay => exact hs
    | tpin v room => exact hs
    | run r =>
      obtain ⟨hn, hsign, -⟩ := peakScan_legal s.draws s.cfg.gOut r.out 0 s.tpGain hs.1 hs.2
      exact ⟨hn, hsign⟩
    | tprst => exact State.peakLegal_resetOf s.cfg

/-- No command's own rule but that of `TPRST` lowers a legal peak (R178 (2)). -/
theorem Done.peak_le {i : Instr} {s t : State} (hs : s.PeakLegal) (h : Done i s t) (hi : i.opcode ≠ 0x23) :
    order s.tpGain ≤ order t.tpGain := by
  by_cases hl : loudnessCommand i = true ∨ readCommand i = true
  · rw [(h.sameTruePeak hl).1.1]
  · cases i with
    | tpin ch data => subst h; exact le_refl _
    | tprun ch data =>
      rcases h with ⟨r, rest, -, rfl⟩ | ⟨rest, -, rfl⟩
      · exact (peakScan_legal s.draws s.cfg.gOut r.out 0 s.tpGain hs.1 hs.2).2.2
      · exact le_refl _
    | tprst ch data => exact absurd rfl hi
    | _ => simp [loudnessCommand, readCommand] at hl

/-- Settles O20: a raised cause leaves the peak, and so does every command's own rule or raises it, but for `TPRST`. -/
theorem peakNeverDecreases : Obligations.PeakNeverDecreases := by
  intro s t hs h hrst hop
  rcases step_next h with ⟨-, rfl⟩ | ⟨d, rest, hp, -⟩ | ⟨w, rest, e, -, -, -, rfl⟩ | ⟨w, rest, i, hp, -, hd, hx⟩
  · exact le_refl _
  · exact absurd hp (hrst d rest)
  · rw [(State.raise_sides _ _ _ _ _).2.2.1.1]
  · rcases exec_next_cases hx with ⟨c, rfl⟩ | ⟨-, -, hdone⟩
    · rw [(State.raise_sides _ _ _ _ _).2.2.1.1]
    · exact Done.peak_le (s := { s with port := rest }) hs hdone ((decode_fields hd).1 ▸ hop w rest hp)

/-! ### The fault record -/

/-- The record of a cause is legal (R241, R245). -/
theorem faultRecord_legal (c : Cause) (op ch : BitVec 8) :
    (faultRecord c op ch).extractLsb' 24 40 = 0 ∧ 1 ≤ ((faultRecord c op ch).extractLsb' 0 8).toNat ∧
      ((faultRecord c op ch).extractLsb' 0 8).toNat ≤ 7 := by
  have hrec := faultRecord_toNat c op ch
  have hch := ch.isLt
  have hop := op.isLt
  have hcode : 1 ≤ c.code.toNat ∧ c.code.toNat ≤ 7 := by cases c <;> decide
  have hhigh : ((faultRecord c op ch).extractLsb' 24 40).toNat = 0 := by
    rw [BitVec.extractLsb'_toNat, Nat.shiftRight_eq_div_pow, hrec]
    omega
  have hlow : ((faultRecord c op ch).extractLsb' 0 8).toNat = c.code.toNat := by
    rw [BitVec.extractLsb'_toNat, Nat.shiftRight_eq_div_pow, hrec]
    omega
  exact ⟨BitVec.eq_of_toNat_eq hhigh, by omega, by omega⟩

/-- The record is legal after a fault entry, where no `TPRUN` waits. -/
theorem State.recordLegal_raise {s : State} (hs : s.RecordLegal) (hw : s.waiting = false) (c : Cause) (op ch : BitVec 8)
    (data : BitVec 64) : (s.raise c op ch data).RecordLegal := by
  rcases Bool.eq_false_or_eq_true s.fault with hf | hf
  · rw [State.raise_of_fault hf]
    exact hs
  · rw [State.raise_of_running hf]
    obtain ⟨hhigh, hlow, hle⟩ := faultRecord_legal c op ch
    exact ⟨hhigh, hlow, hle, hw⟩

/-- Only a `TPRUN` comes to wait. -/
theorem Done.waiting_of_ne_tprun {i : Instr} {s t : State} (hi : ∀ ch data, i ≠ .tprun ch data) (h : Done i s t) :
    t.waiting = s.waiting := by
  cases i with
  | tprun ch data => exact absurd rfl (hi ch data)
  | push ch data =>
    subst h
    exact (pushed_stays s ch data).2.2.2.1.2.2.2
  | _ => subst h; rfl

/-- A command's own rule keeps the record legal: it writes none of it, and `TPRUN` does not run in the fault state. -/
theorem Done.recordLegal {i : Instr} {s t : State} (hs : s.RecordLegal)
    (hx : s.fault = false ∨ runsInFault i.opcode = true) (h : Done i s t) : t.RecordLegal := by
  obtain ⟨hfault, hreg, hdata⟩ := h.sameFault
  unfold State.RecordLegal at hs ⊢
  rw [hfault, hreg, hdata]
  rcases Bool.eq_false_or_eq_true s.fault with hf | hf
  · have hi : ∀ ch data, i ≠ .tprun ch data := by
      rintro ch data rfl
      simp [hf, runsInFault, Instr.opcode] at hx
    rw [h.waiting_of_ne_tprun hi]
    exact hs
  · simpa [hf] using hs

/-- Settles O21. -/
theorem stepKeepsRecordLegal : Obligations.StepKeepsRecordLegal := by
  intro s t hs h
  rcases step_next h with ⟨-, rfl⟩ | ⟨d, rest, -, rfl⟩ | ⟨w, rest, e, -, hw, -, rfl⟩ | ⟨w, rest, i, -, hw, -, hx⟩
  · exact hs
  · exact State.recordLegal_resetOf s.cfg
  · exact State.recordLegal_raise (s := { s with port := rest }) hs hw _ _ _ _
  · rcases exec_next_cases hx with ⟨c, rfl⟩ | ⟨-, hrun, hd⟩
    · exact State.recordLegal_raise (s := { s with port := rest }) hs hw _ _ _ _
    · exact Done.recordLegal (s := { s with port := rest }) hs hrun hd

/-! ### Latches, cursor and filters -/

/-- A `PUSH` in mode CIRC, or one that completes no block, leaves the flags, `BLKCNT` and `blk_e`; in mode BLOCK it may set
`BLOCK_READY` (R133, R135). -/
theorem pushed_flags (s : State) (ch : BitVec 8) (x : BitVec 64) :
    (s.cfg.mode = .block ∧ (pushed s ch x).blockReady = true) ∨
    ((pushed s ch x).blockReady = s.blockReady ∧ (pushed s ch x).ovr = s.ovr ∧ (pushed s ch x).blkCnt = s.blkCnt ∧
      (pushed s ch x).blkE = s.blkE) := by
  rcases pushed_cases s ch x with ⟨-, e⟩ | ⟨-, -, e⟩ | ⟨-, -, -, e⟩ | ⟨-, -, hm, e⟩ <;> rw [e]
  · exact .inr ⟨rfl, rfl, rfl, rfl⟩
  · exact .inr ⟨rfl, rfl, rfl, rfl⟩
  · exact .inr ⟨rfl, rfl, rfl, rfl⟩
  · exact .inl ⟨hm, rfl⟩

/-- In mode CIRC every effect on the loudness side keeps the latches of the channels at their reset value (R135). -/
theorem LoudnessEffect.latches_circ {s u : State} (h : LoudnessEffect s u) (hm : s.cfg.mode = .circ)
    (hs : ∀ k ∈ s.chans, k.blkMs = 0) : ∀ k ∈ u.chans, k.blkMs = 0 :=
  h.forall_chans hs rfl (fun _ hk => hk) (fun _ hk => hk) (fun _ _ hk => hk) (fun _ _ hk => hk) (fun _ hk => hk)
    (fun _ _ _ hb => by simp [hm] at hb)

theorem State.LatchesLegal.effect {s u : State} (hs : s.LatchesLegal) (h : LoudnessEffect s u) : u.LatchesLegal := by
  have hms := fun hm hk => h.latches_circ hm hk
  cases h with
  | push ch x =>
    have hcfg := (pushed_stays s ch x).1
    rcases pushed_flags s ch x with ⟨hm, hready⟩ | ⟨hready, hovr, hcnt, hE⟩
    · exact ⟨fun _ => hready, fun hc => by simp [hcfg, hm] at hc⟩
    · refine ⟨by rw [hready, hovr]; exact hs.overrun, fun hc => ?_⟩
      rw [hcfg] at hc
      obtain ⟨h1, h2, h3, h4⟩ := hs.circ hc
      exact ⟨hready.trans h1, hcnt.trans h2, hE.trans h3, hms hc h4⟩
  | blkack =>
    refine ⟨nofun, fun hc => ?_⟩
    obtain ⟨-, h2, h3, h4⟩ := hs.circ hc
    exact ⟨rfl, h2, h3, h4⟩
  | mrst => exact ⟨nofun, fun hc => ⟨rfl, rfl, rfl, hms hc (hs.circ hc).2.2.2⟩⟩
  | _ =>
    refine ⟨hs.overrun, fun hc => ?_⟩
    obtain ⟨h1, h2, h3, h4⟩ := hs.circ hc
    exact ⟨h1, h2, h3, hms hc h4⟩

/-- Settles O22. -/
theorem stepKeepsLatchesLegal : Obligations.StepKeepsLatchesLegal := by
  intro s t hs h
  refine step_keeps_loudness (P := State.LatchesLegal) ?_ (fun {s} _ => State.latchesLegal_resetOf s.cfg)
    State.LatchesLegal.effect hs h
  rintro s t hcfg ⟨hchans, -, hE, hcnt, hready, hovr⟩ hs
  exact ⟨by rw [hovr, hready]; exact hs.overrun, by rw [hcfg, hready, hcnt, hE, hchans]; exact hs.circ⟩

/-- A `PUSH` advances the cursor, or resumes at `OV` once it completes a block (R133). -/
theorem State.CursorLegal.pushed {s : State} (hs : s.LoudnessShaped) (hc : s.CursorLegal) (ch : BitVec 8) (x : BitVec 64) :
    (pushed s ch x).CursorLegal := by
  rcases pushed_cases s ch x with ⟨-, e⟩ | ⟨-, -, e⟩ | ⟨-, -, hm, e⟩ | ⟨-, -, hm, e⟩ <;> rw [e] <;> intro hb hn
  · exact hc hb hn
  · have hle : s.cfg.retained ≤ s.wp.toNat := hc hb hn
    show s.cfg.retained ≤ (s.wp + 1).toNat
    rw [hs.wp_succ]
    omega
  · exact absurd (hm.symm.trans hb) nofun
  · exact hs.retained_toNat.ge

/-- Settles O23: with the shape, since the cursor's increment must not overflow. -/
theorem stepKeepsCursorLegal : Obligations.StepKeepsCursorLegal := by
  intro s t hs hc h
  refine (step_keeps_loudness (P := fun s => s.LoudnessShaped ∧ s.CursorLegal) ?_ ?_ ?_ ⟨hs.loudness, hc⟩ h).2
  · rintro s t hcfg hloud ⟨hs, hc⟩
    refine ⟨hs.congr hcfg hloud, ?_⟩
    obtain ⟨-, hwp, -, hcnt, -⟩ := hloud
    rw [State.CursorLegal, hcfg, hwp, hcnt]
    exact hc
  · exact fun ⟨hs, _⟩ => ⟨hs.resetOf, State.cursorLegal_resetOf _⟩
  · rintro s u ⟨hs, hc⟩ he
    refine ⟨hs.effect he, ?_⟩
    cases he with
    | push ch x => exact hc.pushed hs ch x
    | mrst => exact fun _ hn => absurd rfl hn
    | _ => exact hc

/-- No filter register of the channel holds a signalling NaN (R22). -/
def Channel.Quiet (k : Channel) : Prop :=
  notSignalling k.prev1 ∧ notSignalling k.last1 ∧ notSignalling k.prev2 ∧ notSignalling k.last2

theorem Channel.quiet_clearFilter (k : Channel) : k.clearFilter.Quiet :=
  ⟨notSignalling_zero, notSignalling_zero, notSignalling_zero, notSignalling_zero⟩

/-- The cascade leaves a difference in each `prev` and the old `prev` in each `last`, so none of them signals (R22, R100). -/
theorem Channel.Quiet.cascade {k : Channel} (h : k.Quiet) (d : Nat) (c : Config) (x : F64) : (cascade d c k x).1.Quiet :=
  ⟨fsub_notSignalling _ _ _ _, h.1, fsub_notSignalling _ _ _ _, h.2.2.1⟩

/-- Settles O24. -/
theorem stepKeepsFiltersQuiet : Obligations.StepKeepsFiltersQuiet := by
  intro s t hs h
  refine step_keeps_loudness (P := State.FiltersQuiet) ?_ (fun {s} _ => State.filtersQuiet_resetOf s.cfg) ?_ hs h
  · intro s t _ hloud hs
    rw [State.FiltersQuiet, hloud.1]
    exact hs
  · intro s u hs he
    exact he.forall_chans (Q := Channel.Quiet) hs Channel.reset.quiet_clearFilter (fun k _ => k.quiet_clearFilter)
      (fun k _ => k.quiet_clearFilter) (fun k x hk => hk.cascade s.draws s.cfg x) (fun k x hk => hk.cascade s.draws s.cfg x)
      (fun _ hk => hk) (fun _ _ hk _ => hk)

end Sys2Proof.Machine
end

section
/-! SUPPORT. Every command answers once, and only the resampler stops one (R13, R281). -/

namespace Sys2Proof.Machine

/-- A command's own rule gives one response, or is a `TPRUN` that is never answered, which comes to wait without one. -/
theorem Done.answers_or_waits {i : Instr} {s t : State} (h : Done i s t) :
    t.port = s.port ∧ ((t.waiting = s.waiting ∧ ∃ d, Answers s t d) ∨
      (t.waiting = true ∧ t.rsps = s.rsps ∧ i.opcode = 0x21 ∧ ∃ later, s.replies = .silent :: later)) := by
  cases i with
  | push ch data =>
    obtain ⟨-, -, hrsps, ⟨hport, -, -, hwait⟩, -⟩ := pushed_stays s ch data
    subst h
    exact ⟨hport, .inl ⟨hwait, _, State.respond_answers s _ _ hrsps⟩⟩
  | tprun ch data =>
    rcases h with ⟨r, rest, -, rfl⟩ | ⟨rest, hr, rfl⟩
    · exact ⟨rfl, .inl ⟨rfl, _, State.respond_answers s _ _ rfl⟩⟩
    · exact ⟨rfl, .inr ⟨rfl, rfl, rfl, rest, hr⟩⟩
  | _ => subst h; exact ⟨rfl, .inl ⟨rfl, _, State.respond_answers s _ _ rfl⟩⟩

/-- The word `w` is off the port and has its one response, or is a `TPRUN` that waits without one; no parameter changes. -/
def AnsweredOnce (w : CmdWord) (rest : List PortEvent) (s t : State) : Prop :=
  t.port = rest ∧ t.cfg = s.cfg ∧ ((t.waiting = false ∧ ∃ d, Answers s t d) ∨
    (t.waiting = true ∧ t.rsps = s.rsps ∧ opField w = 0x21 ∧ ∃ later, s.replies = .silent :: later))

section AnsweredOnce
variable {s : State} (hw : s.waiting = false) (w : CmdWord) (rest : List PortEvent)
include hw

theorem answeredOnce_raise (c : Cause) (op ch : BitVec 8) (data : BitVec 64) :
    AnsweredOnce w rest s (({ s with port := rest } : State).raise c op ch data) := by
  obtain ⟨hcfg, -, -, hport, -, -, hwait⟩ := State.raise_sides { s with port := rest } c op ch data
  exact ⟨hport, hcfg, .inl ⟨hwait.trans hw, 0, State.answers_raise { s with port := rest } c op ch data⟩⟩

theorem answeredOnce_done {i : Instr} {t : State} (hi : i.opcode = opField w) (h : Done i { s with port := rest } t) :
    AnsweredOnce w rest s t := by
  obtain ⟨hport, ⟨hwait, hans⟩ | ⟨hwait, hrsps, hop, hsil⟩⟩ := h.answers_or_waits
  · exact ⟨hport, h.cfg, .inl ⟨hwait.trans hw, hans⟩⟩
  · exact ⟨hport, h.cfg, .inr ⟨hwait, hrsps, hi ▸ hop, hsil⟩⟩

end AnsweredOnce

/-- Settles O15: a raised cause gives the response 0, and a command's own rule one response or none and a wait. -/
theorem everyCommandAnswersOnce : Obligations.EveryCommandAnswersOnce := by
  intro s t w rest hp h
  rcases step_next h with ⟨hp', -⟩ | ⟨d, rest', hp', -⟩ | ⟨w', rest', e, hp', hw, -, rfl⟩ | ⟨w', rest', i, hp', hw, hd, hx⟩
  · simp [hp] at hp'
  · simp [hp] at hp'
  · obtain ⟨rfl, rfl⟩ : w = w' ∧ rest = rest' := by simpa [hp] using hp'
    exact ⟨hw, answeredOnce_raise hw w rest _ _ _ _⟩
  · obtain ⟨rfl, rfl⟩ : w = w' ∧ rest = rest' := by simpa [hp] using hp'
    rcases exec_next_cases hx with ⟨c, rfl⟩ | ⟨-, -, hdone⟩
    · exact ⟨hw, answeredOnce_raise hw w rest _ _ _ _⟩
    · exact ⟨hw, answeredOnce_done hw w rest (decode_fields hd).1 hdone⟩

/-! ### What stops a command -/

/-- What `TPRUN` sends (R176): the whole frames, and the elements below the fill count in order. -/
theorem State.request_eq (s : State) :
    s.request = ⟨s.tpFill.toNat / s.cfg.tpNch, (List.range s.tpFill.toNat).map s.tpi.read⟩ := by
  simp [State.request, Mem.slice_eq]

/-- A command completes, or comes to wait, unless it is a `TPRUN` whose answer breaks the contract (R281, U6). -/
theorem exec_next_or_breach (i : Instr) (s : State) : (∃ t, exec i s = .next t) ∨
    ∃ ch data a later, i = .tprun ch data ∧ s.replies = .answer a :: later ∧
      replyConforms s.cfg s.request.frames a = false ∧ exec i s = .refused .resamplerBreach := by
  by_cases hx : s.fault = false ∨ runsInFault i.opcode = true
  · cases hc : firstCause i s with
    | some c => exact .inl ⟨_, exec_of_cause hx hc⟩
    | none =>
      obtain ⟨he, ho⟩ := exec_of_none hx hc
      rcases bodyOf_cases i s with ⟨c, hc', -⟩ | ⟨-, ⟨t, -, hb⟩ | ⟨ch, data, a, later, hi, hr, hn, hb⟩⟩
      · simp [ho] at hc'
      · exact .inl ⟨t, he.trans hb⟩
      · exact .inr ⟨ch, data, a, later, hi, hr, hn, he.trans hb⟩
  · simp only [not_or, Bool.not_eq_false, Bool.not_eq_true] at hx
    exact .inl ⟨_, exec_of_fault hx.1 hx.2⟩

/-- A `TPRUN` for which no condition holds does its own rule, where the answer that is there keeps the contract. -/
theorem exec_tprun {ch : BitVec 8} {data : BitVec 64} {s : State} (h : Proper (.tprun ch data) s)
    (hr : ∀ a later, s.replies = .answer a :: later → replyConforms s.cfg s.request.frames a = true) :
    ∃ t, exec (.tprun ch data) s = .next t ∧ Done (.tprun ch data) s t := by
  obtain ⟨he, ho⟩ := exec_of_none (.inl h.1) h.2
  rcases bodyOf_cases (.tprun ch data) s with ⟨c, hc, -⟩ | ⟨-, ⟨t, hd, hb⟩ | ⟨_, _, a, later, -, ha, hn, -⟩⟩
  · simp [ho] at hc
  · exact ⟨t, he.trans hb, hd⟩
  · simp [hr a later ha] at hn

/-- A `TPRUN` that is never answered waits (R281). -/
theorem exec_tprun_silent {ch : BitVec 8} {data : BitVec 64} {s : State} {later : List ResamplerMove}
    (h : Proper (.tprun ch data) s) (hr : s.replies = .silent :: later) : exec (.tprun ch data) s = .next (s.await later) := by
  obtain ⟨t, hx, ⟨r, rest, ⟨hnil, -⟩ | ⟨hans, -⟩, -⟩ | ⟨rest, hsil, ht⟩⟩ := exec_tprun h (by simp [hr])
  · simp [hr] at hnil
  · simp [hr] at hans
  · obtain rfl : later = rest := by simpa [hr] using hsil
    rw [hx, ht]

/-- A step takes an event that is refused, finds the block stuck, or executes a `TPRUN` that stops: there is no other way to
answer no next state. -/
theorem step_stops {s : State} (h : ∀ t, step s ≠ .next t) : ∃ e rest, s.port = e :: rest ∧
    ((s.cfg.valid = false ∧ step s = .refused .noInstance) ∨
     (∃ w, e = .cmd w ∧ s.cfg.valid = true ∧ s.waiting = true ∧ step s = .fault .resamplerSilent) ∨
     (∃ w ch data a later, e = .cmd w ∧ s.cfg.valid = true ∧ s.waiting = false ∧ decode w = .ok (.tprun ch data) ∧
        s.replies = .answer a :: later ∧ step s = .refused .resamplerBreach)) := by
  cases hp : s.port with
  | nil => exact absurd (step_of_idle hp) (h s)
  | cons e rest =>
    refine ⟨e, rest, rfl, ?_⟩
    rcases Bool.eq_false_or_eq_true s.cfg.valid with hv | hv
    · right
      cases e with
      | rst d => exact absurd (step_of_rst hv hp) (h _)
      | cmd w =>
        rcases Bool.eq_false_or_eq_true s.waiting with hw | hw
        · exact .inl ⟨w, rfl, hv, hw, step_of_waiting hv hw hp⟩
        · right
          have hstep := step_of_cmd hv hw hp
          cases hd : decode w with
          | error er => exact absurd (hstep.trans (acceptWord_of_error hd _)) (h _)
          | ok i =>
            rw [acceptWord_of_ok hd] at hstep
            rcases exec_next_or_breach i { s with port := rest } with ⟨t, hx⟩ | ⟨ch, data, a, later, rfl, hr, -, hx⟩
            · exact absurd (hstep.trans hx) (h t)
            · exact ⟨w, ch, data, a, later, rfl, hv, hw, hd, hr, hstep.trans hx⟩
    · exact .inl ⟨hv, step_of_invalid hp hv⟩

/-- Settles O16. -/
theorem onlyTprunCanStop : Obligations.OnlyTprunCanStop := by
  refine ⟨fun i s h => ?_, fun ch data s later h hr => ?_, fun s hv hw w rest hp => step_of_waiting hv hw hp,
    fun s h => step_stops h⟩
  · rcases exec_next_or_breach i s with ⟨t, hx⟩ | ⟨ch, data, a, later, hi, hr, hn, hx⟩
    · exact absurd hx (h t)
    · exact ⟨ch, data, a, later, hi, hr, by simpa [State.request] using hn, hx⟩
  · rw [exec_tprun_silent h hr, State.await, State.request_eq]

end Sys2Proof.Machine
end

section
/-! SUPPORT. Isolation: a loudness command depends on the loudness side alone (R149), a cascade on the registers of its channel
(R101), and the `PUSH`es of a frame commute (R150). -/

namespace Sys2Proof.Machine

/-- `FrameCommit()` as one choice (R132, R133, R135). -/
theorem State.frameCommit_eq (s : State) : s.frameCommit =
    if (s.wp + 1).toNat = s.cfg.bufLen then
      if s.cfg.mode = .block then (s.openFrame (s.wp + 1)).blockComplete else s.openFrame 0
    else s.openFrame (s.wp + 1) := by
  rcases s.frameCommit_cases with ⟨hw, e⟩ | ⟨hw, hm, e⟩ | ⟨hw, hm, e⟩
  · rw [if_neg hw, e, State.openFrame]
  · rw [if_pos hw, if_neg (by simp [hm]), e, State.openFrame]
  · rw [if_pos hw, if_pos hm, e, State.openFrame]

/-- The frame committed if it is full: the end of a `PUSH` (R131). -/
def State.settled (s : State) : State := if s.frameFull then s.frameCommit else s

theorem pushed_eq_settled (s : State) (ch : BitVec 8) (x : BitVec 64) : pushed s ch x = (s.storeSample ch.toNat x).settled := rfl

/-! ### States that agree on what a loudness command reads -/

/-- The two states have the same parameters, loudness side, `STATUS.FAULT` and free-value counter. -/
structure LoudnessAgree (s s' : State) : Prop where
  cfg : s'.cfg = s.cfg
  loudness : SameLoudness s s'
  fault : s'.fault = s.fault
  draws : s'.draws = s.draws

namespace LoudnessAgree
variable {s s' : State} (h : LoudnessAgree s s')
include h

theorem chans : s'.chans = s.chans := h.loudness.1

theorem wp : s'.wp = s.wp := h.loudness.2.1

theorem blkE : s'.blkE = s.blkE := h.loudness.2.2.1

theorem chan (e : Nat) : s'.chan e = s.chan e := by
  rw [State.chan, State.chan, h.chans]

theorem energy : s'.energy = s.energy := by
  rw [State.energy, State.energy, State.meanSquares, State.meanSquares, h.cfg, h.draws, h.chans]

theorem respond (v v' : F64) : LoudnessAgree (s.respond v) (s'.respond v') := ⟨h.cfg, h.loudness, h.fault, h.draws⟩

theorem drawn : LoudnessAgree s.drawn s'.drawn := ⟨h.cfg, h.loudness, h.fault, by simp [h.draws]⟩

/-- The same channels and cursor put into both states. -/
theorem withChans {l l' : List Channel} (hl : l' = l) {w w' : BitVec 32} (hw : w' = w) :
    LoudnessAgree { s with chans := l, wp := w } { s' with chans := l', wp := w' } := by
  obtain ⟨-, -, hE, hcnt, hready, hovr⟩ := h.loudness
  exact ⟨h.cfg, ⟨hl, hw, hE, hcnt, hready, hovr⟩, h.fault, h.draws⟩

theorem updChan (c : Nat) {f f' : Channel → Channel} (hf : f' = f) : LoudnessAgree (s.updChan c f) (s'.updChan c f') :=
  h.withChans (by rw [hf, h.chans]) h.wp

theorem storeSample (c : Nat) (x : F64) : LoudnessAgree (s.storeSample c x) (s'.storeSample c x) :=
  h.updChan c (by rw [h.cfg, h.draws, h.wp])

theorem blockComplete : LoudnessAgree s.blockComplete s'.blockComplete := by
  obtain ⟨-, -, -, hcnt, hready, hovr⟩ := h.loudness
  refine ⟨h.cfg, ⟨?_, ?_, h.energy, ?_, rfl, ?_⟩, h.fault, h.draws⟩
  · rw [State.blockComplete_chans, State.blockComplete_chans, h.cfg, h.draws, h.chans]
  · show BitVec.ofNat 32 s'.cfg.retained = BitVec.ofNat 32 s.cfg.retained
    rw [h.cfg]
  · show s'.blkCnt + 1 = s.blkCnt + 1
    rw [hcnt]
  · show (s'.ovr || s'.blockReady) = (s.ovr || s.blockReady)
    rw [hovr, hready]

theorem openFrame {w w' : BitVec 32} (hw : w' = w) : LoudnessAgree (s.openFrame w) (s'.openFrame w') :=
  h.withChans (by rw [h.chans]) hw

theorem frameCommit : LoudnessAgree s.frameCommit s'.frameCommit := by
  rw [State.frameCommit_eq, State.frameCommit_eq, h.wp, h.cfg]
  split_ifs
  · exact (h.openFrame rfl).blockComplete
  · exact h.openFrame rfl
  · exact h.openFrame rfl

theorem settled : LoudnessAgree s.settled s'.settled := by
  unfold State.settled State.frameFull
  rw [h.chans]
  split_ifs
  · exact h.frameCommit
  · exact h

theorem meterReset : LoudnessAgree s.meterReset s'.meterReset :=
  ⟨h.cfg, ⟨by simp [State.meterReset, h.chans], rfl, rfl, rfl, rfl, rfl⟩, h.fault, h.draws⟩

theorem blkack : LoudnessAgree { s with blockReady := false, ovr := false } { s' with blockReady := false, ovr := false } := by
  obtain ⟨hchans, hwp, hE, hcnt, -, -⟩ := h.loudness
  exact ⟨h.cfg, ⟨hchans, hwp, hE, hcnt, rfl, rfl⟩, h.fault, h.draws⟩

/-- A fault entry, or the response 0 in the fault state, is the same in both. -/
theorem raise (c : Cause) (op ch : BitVec 8) (data : BitVec 64) :
    LoudnessAgree (s.raise c op ch data) (s'.raise c op ch data) := by
  rcases Bool.eq_false_or_eq_true s.fault with hf | hf
  · rw [State.raise_of_fault hf, State.raise_of_fault (h.fault.trans hf)]
    exact h.respond 0 0
  · rw [State.raise_of_running hf, State.raise_of_running (h.fault.trans hf)]
    exact ⟨h.cfg, h.loudness, rfl, h.draws⟩

/-- The conditions of R243 on a loudness command read nothing else. -/
theorem firstCause {i : Instr} (hi : loudnessCommand i = true) : firstCause i s' = firstCause i s := by
  have hindex : indexOut i s' = indexOut i s := by
    cases i <;> simp [indexOut, indexBound, h.cfg]
  have hown : ownCause s' i = ownCause s i := by
    cases i with
    | push ch data => simp [ownCause, h.chan]
    | tpin _ _ | tprun _ _ => cases hi
    | _ => rfl
  unfold Machine.firstCause
  rw [hindex, hown, h.cfg]

end LoudnessAgree

/-! ### What a loudness command answers -/

/-- The two responses that `t` and `t'` end with carry the same `DATA`. -/
def SameAnswer (s t s' t' : State) : Prop :=
  ∃ r r', t.rsps = s.rsps ++ [r] ∧ t'.rsps = s'.rsps ++ [r'] ∧ r'.extractLsb' 0 64 = r.extractLsb' 0 64

theorem SameAnswer.of_answers {s t s' t' : State} {v : BitVec 64} (h : Answers s t v) (h' : Answers s' t' v) :
    SameAnswer s t s' t' :=
  ⟨_, _, h, h', (responseWord_data t' v).trans (responseWord_data t v).symm⟩

/-- Two states that agree and respond the same still do. -/
theorem LoudnessAgree.answer {s s' u u' : State} (hu : LoudnessAgree u u') (hr : u.rsps = s.rsps) (hr' : u'.rsps = s'.rsps)
    {v v' : F64} (hv : v' = v) :
    LoudnessAgree (u.respond v) (u'.respond v') ∧ SameAnswer s (u.respond v) s' (u'.respond v') := by
  subst hv
  exact ⟨hu.respond v' v', .of_answers (State.respond_answers s v' u hr) (State.respond_answers s' v' u' hr')⟩

/-- Of two states that agree, a loudness command's own rule makes two states that agree, with the same answer. -/
theorem Done.agree {i : Instr} {s s' t t' : State} (h : LoudnessAgree s s') (hi : loudnessCommand i = true)
    (hd : Done i s t) (hd' : Done i s' t') : LoudnessAgree t t' ∧ SameAnswer s t s' t' := by
  have cascaded : ∀ (ch : BitVec 8) x, (cascade s'.draws s'.cfg (s'.chan ch.toNat) x).2
      = (cascade s.draws s.cfg (s.chan ch.toNat) x).2 := fun ch x => by rw [h.draws, h.cfg, h.chan]
  cases i with
  | nop _ _ | tpin _ _ | tprun _ _ | tprd _ _ | tprst _ _ | rdreg _ _ => cases hi
  | frst ch data => subst hd hd'; exact (h.updChan _ rfl).answer rfl rfl rfl
  | fproc ch data =>
    subst hd hd'
    exact (h.updChan ch.toNat (by rw [h.draws, h.cfg])).drawn.answer rfl rfl (cascaded ch data)
  | rdfs ch data => subst hd hd'; exact h.answer rfl rfl (by rw [h.chan])
  | push ch data =>
    subst hd hd'
    exact (h.storeSample ch.toNat data).settled.drawn.answer (pushed_stays s ch data).2.2.1 (pushed_stays s' ch data).2.2.1
      (cascaded ch data)
  | msq ch data => subst hd hd'; exact h.drawn.answer rfl rfl (by rw [h.draws, h.cfg, h.chan])
  | wsum ch data => subst hd hd'; exact h.drawn.answer rfl rfl h.energy
  | rdblk ch data => subst hd hd'; exact h.answer rfl rfl (by rw [h.chan])
  | rdblke ch data => subst hd hd'; exact h.answer rfl rfl h.blkE
  | blkack ch data => subst hd hd'; exact h.blkack.answer rfl rfl rfl
  | crst ch data => subst hd hd'; exact (h.updChan _ rfl).answer rfl rfl rfl
  | mrst ch data => subst hd hd'; exact h.meterReset.answer rfl rfl rfl
  | rdbuf ch data => subst hd hd'; exact h.answer rfl rfl (by rw [h.chan])
  | rdw ch data => subst hd hd'; exact h.answer rfl rfl (by rw [h.cfg])

/-- A loudness command is none of those executed in the fault state, and no `TPRUN`. -/
theorem loudnessCommand_ne {i : Instr} (hi : loudnessCommand i = true) :
    runsInFault i.opcode = false ∧ ∀ ch data, i ≠ .tprun ch data := by
  cases i with
  | nop _ _ | tpin _ _ | tprun _ _ | tprd _ _ | tprst _ _ | rdreg _ _ => cases hi
  | _ => exact ⟨rfl, nofun⟩

/-- Of two states that agree, a loudness command makes two states that agree, with the same answer (R149). -/
theorem exec_agree {i : Instr} {s s' t : State} (hi : loudnessCommand i = true) (h : LoudnessAgree s s')
    (hx : exec i s = .next t) : ∃ t', exec i s' = .next t' ∧ LoudnessAgree t t' ∧ SameAnswer s t s' t' := by
  obtain ⟨hrun, hne⟩ := loudnessCommand_ne hi
  rcases exec_next hx with ⟨hf, rfl⟩ | ⟨c, hf, hc, rfl⟩ | ⟨hc, hf, hd⟩
  · exact ⟨_, exec_of_fault (h.fault.trans hf) hrun, h.answer rfl rfl rfl⟩
  · exact ⟨_, exec_of_cause (.inl (h.fault.trans hf)) ((h.firstCause hi).trans hc), h.raise _ _ _ _,
      .of_answers (State.answers_raise s _ _ _ _) (State.answers_raise s' _ _ _ _)⟩
  · have hf : s.fault = false := by simpa [hrun] using hf
    obtain ⟨t', hx', hd'⟩ := exec_proper (s := s') ⟨h.fault.trans hf, (h.firstCause hi).trans hc⟩ hne
    exact ⟨t', hx', hd.agree h hi hd'⟩

/-- Settles O28. -/
theorem loudnessIsDeterminedByLoudness : Obligations.LoudnessIsDeterminedByLoudness := by
  intro i s s' t hi hcfg hloud hfault hdraws hx
  obtain ⟨t', hx', hagree, r, r', hr, hr', hdata⟩ := exec_agree hi ⟨hcfg, hloud, hfault, hdraws⟩ hx
  exact ⟨t', r, r', hx', hagree.cfg, hagree.loudness, hagree.fault, hagree.draws, hr, hr', hdata⟩

end Sys2Proof.Machine
end

section
/-! SUPPORT. The cascade reads the registers of its channel alone (R101), and the `PUSH`es of a frame commute (R150). -/

namespace Sys2Proof.Machine

/-! ### The commands that update one channel -/

/-- The cascade reads of a channel its four registers alone, and leaves in them the same for the same (R101). -/
theorem cascade_of_sameFilter {k l : Channel} (h : SameFilter k l) (d : Nat) (c : Config) (x : F64) :
    (cascade d c l x).2 = (cascade d c k x).2 ∧ SameFilter (cascade d c k x).1 (cascade d c l x).1 := by
  obtain ⟨h1, h2, h3, h4⟩ := h
  simp [cascade, SameFilter, h1, h2, h3, h4]

/-- Updating a channel the instance has changes that channel and nothing else. -/
theorem State.updChan_frame {s : State} {c : Nat} (f : Channel → Channel) (h : c < s.chans.length) :
    (s.updChan c f).chan c = f (s.chan c) ∧ SameOtherChannels c s (s.updChan c f) ∧ SameBesidesChannels s (s.updChan c f) :=
  ⟨s.chan_updChan_same c f h, s.updChan_sameOther c f,
    rfl, rfl, rfl, rfl, rfl, rfl, ⟨rfl, rfl, rfl, rfl⟩, ⟨rfl, rfl, rfl⟩, rfl, rfl, rfl, rfl⟩

/-- A proper command that names a channel names one of the list. -/
theorem Proper.channel_lt {i : Instr} {s : State} (h : Proper i s) (hn : namesChannel i = true)
    (hlen : s.chans.length = s.cfg.nch) : i.ch.toNat < s.chans.length := hlen ▸ h.channel hn

/-- What a proper command does whose rule updates its channel and responds `v`. -/
theorem exec_updChan {i : Instr} {s : State} {f : Channel → Channel} {v : F64} (hp : Proper i s)
    (hn : namesChannel i = true) (hlt : i.ch.toNat < s.chans.length)
    (hd : ∀ t, Done i s t → t = (s.updChan i.ch.toNat f).respond v ∨ t = (s.updChan i.ch.toNat f).drawn.respond v) :
    ∃ t, exec i s = .next t ∧ Answers s t v ∧ t.chan i.ch.toNat = f (s.chan i.ch.toNat) ∧
      SameOtherChannels i.ch.toNat s t ∧ SameBesidesChannels s t := by
  obtain ⟨t, hx, ht⟩ := exec_proper hp (by rintro ch data rfl; cases hn)
  rcases hd t ht with rfl | rfl <;> exact ⟨_, hx, State.respond_answers s v _ rfl, State.updChan_frame f hlt⟩

/-- What `FPROC` does where no condition holds: the cascade through its channel, and the response (R111). -/
theorem exec_fproc {ch : BitVec 8} {x : BitVec 64} {s : State} (hp : Proper (.fproc ch x) s)
    (hlt : ch.toNat < s.chans.length) :
    ∃ t, exec (.fproc ch x) s = .next t ∧ Answers s t (cascade s.draws s.cfg (s.chan ch.toNat) x).2 ∧
      t.chan ch.toNat = (cascade s.draws s.cfg (s.chan ch.toNat) x).1 ∧ SameOtherChannels ch.toNat s t ∧
      SameBesidesChannels s t :=
  exec_updChan (f := fun k => (cascade s.draws s.cfg k x).1) hp rfl hlt fun _ ht => .inr ht

/-- Settles O29. -/
theorem filterChannelsAreIndependent : Obligations.FilterChannelsAreIndependent := by
  intro ch x s s' hp hp' hcfg hdraws hlt hlt' hk
  obtain ⟨t, hx, hans, hchan, -⟩ := exec_fproc hp hlt
  obtain ⟨t', hx', hans', hchan', -⟩ := exec_fproc hp' hlt'
  obtain ⟨hy, hfilter⟩ := cascade_of_sameFilter hk s.draws s.cfg x
  rw [hdraws, hcfg] at hans' hchan'
  exact ⟨t, t', _, hx, hx', by rw [hchan, hchan']; exact hfilter, hans, hy ▸ hans'⟩

/-! ### Two `PUSH`es of a frame -/

/-- Outside the fault state `PUSH` is proper exactly where the channel exists and still lacks its sample (R131). -/
theorem proper_push_iff {ch : BitVec 8} {x : BitVec 64} {s : State} :
    Proper (.push ch x) s ↔ s.fault = false ∧ ch.toNat < s.cfg.nch ∧ (s.chan ch.toNat).pushed = false := by
  constructor
  · exact fun ⟨hf, hc⟩ => ⟨hf, push_conditions hc⟩
  · rintro ⟨hf, hlt, hp⟩
    refine ⟨hf, ?_⟩
    have hres : (Instr.push ch x).reservedZero = true := rfl
    have hout : indexOut (.push ch x) s = false := rfl
    have hch : (namesChannel (.push ch x) && decide (s.cfg.nch ≤ (Instr.push ch x).ch.toNat)) = false :=
      decide_eq_false (Nat.not_le.mpr hlt)
    simp [firstCause, hres, hch, hout, ownCause, hp]

/-- What `PUSH` does where no condition holds (R131). -/
theorem exec_push {ch : BitVec 8} {x : BitVec 64} {s : State} (hp : Proper (.push ch x) s) :
    exec (.push ch x) s = .next ((pushed s ch x).drawn.respond (cascade s.draws s.cfg (s.chan ch.toNat) x).2) := by
  obtain ⟨t, hx, hd⟩ := exec_proper hp nofun
  rw [hx, hd]

/-- The channel with the filtered sample stored: what `PUSH` makes of it in `s` (R131). -/
def sampled (s : State) (x : F64) (k : Channel) : Channel :=
  { (cascade s.draws s.cfg k x).1 with buf := k.buf.write s.wp.toNat (cascade s.draws s.cfg k x).2, pushed := true }

theorem State.storeSample_eq (s : State) (c : Nat) (x : F64) : s.storeSample c x = s.updChan c (sampled s x) := rfl

/-- Modifying a channel by functions that agree on it. -/
theorem State.modify_congr {s : State} {c : Nat} {f g : Channel → Channel} (h : f (s.chan c) = g (s.chan c)) :
    s.chans.modify c f = s.chans.modify c g := by
  apply List.ext_getElem (by simp)
  intro i hi _
  rw [List.getElem_modify, List.getElem_modify]
  split
  · subst c
    rwa [s.chan_of_lt i (by simpa using hi)] at h
  · rfl

/-- The state after a `PUSH` that does not fill the frame. -/
def State.pushedOnce (s : State) (ch : BitVec 8) (x : F64) : State :=
  (s.storeSample ch.toNat x).drawn.respond (cascade s.draws s.cfg (s.chan ch.toNat) x).2

/-- A `PUSH` of another channel leaves the channel. -/
theorem State.chan_pushedOnce_other {s : State} {c e : BitVec 8} (h : c ≠ e) (x : F64) :
    (s.pushedOnce c x).chan e.toNat = s.chan e.toNat :=
  s.chan_updChan_other c.toNat (sampled s x) fun he => h (BitVec.eq_of_toNat_eq he.symm)

/-- The draw of a cascade that meets no NaN does not show in what is stored. -/
theorem sampled_pushedOnce {s : State} {k : Channel} {z : F64} (h : numericCascade s.draws s.cfg k z = true)
    (c : BitVec 8) (x : F64) : sampled (s.pushedOnce c x) z k = sampled s z k := by
  have hdraw : cascade (s.draws + 1) s.cfg k z = cascade s.draws s.cfg k z := cascade_draw h
  show sampled { s with draws := s.draws + 1 } z k = _
  simp only [sampled, hdraw]

/-- The two samples stored, one after the other. -/
theorem State.second_chans {s : State} {c e : BitVec 8} (h : c ≠ e) (x : F64) {z : F64}
    (hnum : numericCascade s.draws s.cfg (s.chan e.toNat) z = true) :
    ((s.pushedOnce c x).storeSample e.toNat z).chans =
      (s.chans.modify c.toNat (sampled s x)).modify e.toNat (sampled s z) := by
  refine State.modify_congr (s := s.pushedOnce c x) (f := sampled (s.pushedOnce c x) z) ?_
  rw [State.chan_pushedOnce_other h, sampled_pushedOnce hnum]

/-- Storing the two samples in either order gives states that agree. -/
theorem LoudnessAgree.of_either_order {s : State} {c e : BitVec 8} (h : c ≠ e) {x z : F64}
    (hx : numericCascade s.draws s.cfg (s.chan c.toNat) x = true)
    (hz : numericCascade s.draws s.cfg (s.chan e.toNat) z = true) :
    LoudnessAgree ((s.pushedOnce c x).storeSample e.toNat z) ((s.pushedOnce e z).storeSample c.toNat x) := by
  have hchans : ((s.pushedOnce e z).storeSample c.toNat x).chans = ((s.pushedOnce c x).storeSample e.toNat z).chans := by
    rw [State.second_chans h x hz, State.second_chans h.symm z hx]
    exact List.modify_modify_ne _ _ _ fun he => h (BitVec.eq_of_toNat_eq he.symm)
  refine ⟨?_, ⟨hchans, ?_, ?_, ?_, ?_, ?_⟩, ?_, ?_⟩ <;> simp [State.storeSample, State.pushedOnce]

section TwoPushes
variable {s : State} {c e : BitVec 8} {x z : BitVec 64} (hs : s.Shaped) (hce : c ≠ e) (hc : Proper (.push c x) s)
  (he : Proper (.push e z) s)

include hs hce hc he in
/-- The first of the two does not fill the frame. -/
theorem exec_push_first : exec (.push c x) s = .next (s.pushedOnce c x) := by
  obtain ⟨-, hclt, -⟩ := proper_push_iff.mp hc
  obtain ⟨-, helt, hlacks⟩ := proper_push_iff.mp he
  rw [← hs.channels] at hclt helt
  have hne : e.toNat ≠ c.toNat := fun h => hce (BitVec.eq_of_toNat_eq h.symm)
  have hopen : pushed s c x = s.storeSample c.toNat x := if_neg fun hfull => by
    simp [(State.storeSample_full hclt).mp hfull e.toNat helt hne] at hlacks
  rw [exec_push hc, hopen, State.pushedOnce]

include hce he in
/-- The second of the two is as proper as before the first. -/
theorem proper_push_second : Proper (.push e z) (s.pushedOnce c x) := by
  obtain ⟨hf, helt, hlacks⟩ := proper_push_iff.mp he
  exact proper_push_iff.mpr ⟨hf, helt, by rw [State.chan_pushedOnce_other hce]; exact hlacks⟩

end TwoPushes

/-- Two states that agree and share the rest of a common origin are the same but for the responses. -/
theorem LoudnessAgree.eq_of_stays {s t u : State} (h : LoudnessAgree t u)
    (ht : SamePorts s t ∧ SameFault s t ∧ SameTruePeak s t) (hu : SamePorts s u ∧ SameFault s u ∧ SameTruePeak s u) :
    { u with rsps := t.rsps } = t := by
  obtain ⟨hcfg, hloud, hfault, hdraws⟩ := h
  cases t
  cases u
  simp only [SamePorts, SameFault, SameTruePeak, SameLoudness] at ht hu hloud hcfg hfault hdraws
  simp [ht, hu, hloud, hcfg, hdraws]

/-- Settles O30: the first `PUSH` fills no frame, and the two samples stored in either order give the same state, which then
settles in the same way. -/
theorem pushesOfAFrameCommute : Obligations.PushesOfAFrameCommute := by
  intro c e x z s hs hce hc he hx hz
  refine ⟨_, _, _, _, exec_push_first hs hce hc he, exec_push (proper_push_second hce he),
    exec_push_first hs hce.symm he hc, exec_push (proper_push_second hce.symm hc), ?_⟩
  have hagree := ((LoudnessAgree.of_either_order hce hx hz).settled.drawn).respond
    (cascade (s.pushedOnce c x).draws (s.pushedOnce c x).cfg ((s.pushedOnce c x).chan e.toNat) z).2
    (cascade (s.pushedOnce e z).draws (s.pushedOnce e z).cfg ((s.pushedOnce e z).chan c.toNat) x).2
  exact hagree.eq_of_stays (s := s) (pushed_stays (s.pushedOnce c x) e z).2.2.2 (pushed_stays (s.pushedOnce e z) c x).2.2.2

end Sys2Proof.Machine
end

section
/-! SUPPORT. The commands that read, and the two that clear: what each responds, and that nothing else changes. -/

namespace Sys2Proof.Machine

/-! ### `STATUS` and the register map -/

/-- The byte of five flags is the number they spell in binary (R29). -/
theorem flags_toNat : ∀ framed touched ovr ready fault : Bool,
    (0#3 ++ BitVec.ofBool framed ++ BitVec.ofBool touched ++ BitVec.ofBool ovr ++ BitVec.ofBool ready
        ++ BitVec.ofBool fault).toNat =
      fault.toNat + 2 * ready.toNat + 4 * ovr.toNat + 8 * touched.toNat + 16 * framed.toNat := by
  decide

/-- Settles O31: the word is the byte, and the byte the number of its flags. -/
theorem statusIsItsFlags : Obligations.StatusIsItsFlags := by
  intro s
  constructor
  · have hlt := (statusByte s).isLt
    rw [statusWord, BitVec.toNat_setWidth, Nat.mod_eq_of_lt (by omega)]
    exact flags_toNat _ _ _ _ _
  · rw [statusWord]
    apply BitVec.eq_of_getLsbD_eq
    intro k hk
    rw [BitVec.getLsbD_extractLsb', BitVec.getLsbD_setWidth]
    simp [hk, show k < 64 by omega]

/-- A read command where no condition holds completes with the response of its rule and changes nothing (R56). -/
theorem exec_read {i : Instr} {s : State} {v : BitVec 64} (hi : readCommand i = true) (hp : Proper i s)
    (hv : ∀ t, Done i s t → t = s.respond v ∨ t = s.drawn.respond v) :
    ∃ t, exec i s = .next t ∧ SameBlock s t ∧ SamePorts s t ∧ Answers s t v := by
  obtain ⟨t, hx, hd⟩ := exec_proper hp (by rintro ch data rfl; cases hi)
  rcases hv t hd with rfl | rfl
  · exact ⟨_, hx, s.respond_sameBlock v, s.respond_samePorts v, s.respond_answers v s rfl⟩
  · exact ⟨_, hx, s.drawn.respond_sameBlock v, s.drawn.respond_samePorts v, s.respond_answers v s.drawn rfl⟩

/-- The indices of the map (R202). -/
theorem registerMap_indices (s : State) : (registerMap s).map Prod.fst =
    [0x00, 0x01, 0x02, 0x03, 0x04, 0x05, 0x06, 0x10, 0x11, 0x12, 0x13, 0x14, 0x15, 0x16, 0x17, 0x20, 0x21, 0x22, 0x23, 0x24,
      0x28, 0x29, 0x2A, 0x2B, 0x2C, 0x30, 0x31] := rfl

/-- Every index of the map is accepted (R202). -/
theorem regIndexDefined_of_mem {s : State} {ch : BitVec 8} {v : BitVec 64} (h : (ch.toNat, v) ∈ registerMap s) :
    regIndexDefined ch = true := by
  have hmem : ch.toNat ∈ (registerMap s).map Prod.fst := List.mem_map_of_mem h
  have hall : ∀ k ∈ (registerMap s).map Prod.fst, regIndexDefined (BitVec.ofNat 8 k) = true := by
    rw [registerMap_indices]
    decide
  simpa using hall _ hmem

/-- What `RDREG` reads at an accepted index is the map's entry there (R202). -/
theorem regValue_mem {s : State} {ch : BitVec 8} (h : regIndexDefined ch = true) :
    (ch.toNat, regValue s ch) ∈ registerMap s := by
  unfold regValue
  split
  case h_6 hk => simp [registerMap, hk, State.npushed, List.countP_eq_length_filter]
  case h_10 hk => cases hm : s.cfg.mode <;> simp [registerMap, hk, hm, modeCode]
  case h_28 =>
    simp only [regIndexDefined, Bool.or_eq_true, Bool.and_eq_true, decide_eq_true_eq, beq_iff_eq, imp_false] at *
    omega
  all_goals
    rename_i hk
    simp [registerMap, hk]

/-- Settles O33. -/
theorem rdregReadsTheMap : Obligations.RdregReadsTheMap := by
  refine fun ch s => ⟨fun data hp => ?_, fun hf ⟨v, hv⟩ => ?_⟩
  · have hdef := (firstCause_rdreg_eq_none_iff.mp hp.2).2
    obtain ⟨t, hx, hblock, hports, hans⟩ := exec_read rfl hp fun t ht => .inl ht
    exact ⟨t, _, hx, hblock, hports, hans, regValue_mem hdef⟩
  · exact ⟨hf, firstCause_rdreg_eq_none_iff.mpr ⟨rfl, regIndexDefined_of_mem hv⟩⟩

/-! ### The read-outs -/

/-- The four selectors of `RDFS` (R112). -/
theorem Channel.filterReg_eq (k : Channel) {sel : BitVec 64} (h : sel.toNat < 4) : k.filterReg sel.toNat =
    if sel = 0 then k.prev1 else if sel = 1 then k.last1 else if sel = 2 then k.prev2 else k.last2 := by
  have hsel : sel = 0 ∨ sel = 1 ∨ sel = 2 ∨ sel = 3 := by
    simp only [← BitVec.toNat_inj, BitVec.ofNat_eq_ofNat, BitVec.toNat_ofNat, Nat.reducePow, Nat.reduceMod]
    omega
  rcases hsel with rfl | rfl | rfl | rfl <;> rfl

/-- Settles O37. -/
theorem rdfsReadsTheSelectedRegister : Obligations.RdfsReadsTheSelectedRegister := by
  intro ch sel s hp
  have hsel : sel.toNat < 4 := by
    obtain ⟨hin, -⟩ := Bool.or_eq_false_iff.mp hp.index
    exact Nat.not_le.mp (of_decide_eq_false hin)
  rw [← Channel.filterReg_eq _ hsel]
  exact exec_read rfl hp fun t ht => .inl ht

/-- Settles O48. -/
theorem readOutsAnswerWhatIsStored : Obligations.ReadOutsAnswerWhatIsStored := fun _ _ _ =>
  ⟨fun hp => exec_read rfl hp fun _ ht => .inl ht, fun hp => exec_read rfl hp fun _ ht => .inl ht,
    fun hp => exec_read rfl hp fun _ ht => .inl ht, fun hp => exec_read rfl hp fun _ ht => .inl ht,
    fun hp => exec_read rfl hp fun _ ht => .inl ht⟩

/-- Settles O43: the mean square is the fold, its operations numbered from the channel's first. -/
theorem msqAnswersTheMeanSquare : Obligations.MsqAnswersTheMeanSquare := by
  intro ch data s hp
  obtain ⟨t, hx, hblock, hports, hans⟩ := exec_read rfl hp fun t ht => .inr ht
  refine ⟨t, meanSite s.cfg.bufLen ch.toNat, hx, hblock, hports, ?_⟩
  simpa only [meanSquare, sumSquares_eq, Nat.zero_add] using hans

/-- The energy of a shaped state as a fold over its channels (R137, R139). -/
theorem State.energy_eq {s : State} (hv : s.cfg.valid = true) (hlen : s.chans.length = s.cfg.nch) : s.energy =
    (List.range s.cfg.nch).foldl (fun acc e => fadd s.draws (meanSite s.cfg.bufLen s.cfg.nch + 2 * e + 1) acc
      (fmul s.draws (meanSite s.cfg.bufLen s.cfg.nch + 2 * e) (s.cfg.w.getD e 0)
        (meanSquare s.draws (meanSite s.cfg.bufLen e) s.cfg.bufLen (s.chan e).buf))) 0 := by
  have hw : s.cfg.w.length = s.cfg.nch := (valid_bounds hv).2.2.2.2.2.1
  have hm : s.meanSquares.length = s.cfg.nch := by simp [State.meanSquares, hlen]
  rw [State.energy, weightedSum_eq _ _ _ _ _ _ hw hm]
  exact foldl_range_congr (fun acc e he => by rw [State.meanSquares_getD (by rwa [hlen])]) 0

/-- Settles O46. -/
theorem wsumAnswersTheWeightedSum : Obligations.WsumAnswersTheWeightedSum := by
  intro ch data s hs hp
  obtain ⟨t, hx, hblock, hports, hans⟩ := exec_read rfl hp fun t ht => .inr ht
  exact ⟨t, _, hx, hblock, hports, State.energy_eq hs.valid hs.channels ▸ hans⟩

/-! ### The commands that clear one channel -/

/-- Settles O34. -/
theorem frstZeroesTheFilter : Obligations.FrstZeroesTheFilter := by
  intro ch data s hp hlen
  obtain ⟨t, hx, hans, hchan, hother, hrest⟩ := exec_updChan hp rfl (hp.channel_lt rfl hlen) fun t ht => .inl ht
  refine ⟨t, hx, hans, ?_, ?_, ?_, ?_, ?_, ?_, ?_, hother, hrest⟩ <;> exact (congrArg _ hchan).trans rfl

/-- Settles O50. -/
theorem crstZeroesTheChannel : Obligations.CrstZeroesTheChannel := by
  intro ch data s hp hlen
  obtain ⟨t, hx, hans, hchan, hother, hrest⟩ := exec_updChan hp rfl (hp.channel_lt rfl hlen) fun t ht => .inl ht
  have hbuf : (t.chan ch.toNat).buf = [] := congrArg Channel.buf hchan
  refine ⟨t, hx, hans, ?_, ?_, ?_, ?_, fun i => by rw [hbuf]; rfl, ?_, ?_, hother, hrest⟩ <;>
    exact (congrArg _ hchan).trans rfl

end Sys2Proof.Machine
end

section
/-! SUPPORT. binary64: where an operation gives a NaN, its sign, and what it gives on finite operands (R105 to R108). -/

namespace Sys2Proof.Machine

/-! ### NaN operands and invalid operations -/

theorem isNan_fneg (a : F64) : isNan (fneg a) = isNan a := by simp [isNan, mag_fneg]

theorem isInf_fneg (a : F64) : isInf (fneg a) = isInf a := by simp [isInf, mag_fneg]

theorem isFinite_fneg (a : F64) : isFinite (fneg a) = isFinite a := by simp [isFinite, mag_fneg]

section NanOperand
variable {a b : F64} (h : isNan a = true ∨ isNan b = true) (d k : Nat)
include h

/-- A NaN operand gives a drawn NaN (R106). -/
theorem fadd_of_isNan : fadd d k a b = nanAt d k := if_pos (by simpa using h)

theorem fsub_of_isNan : fsub d k a b = nanAt d k := fadd_of_isNan (by simpa [isNan_fneg] using h) d k

theorem fmul_of_isNan : fmul d k a b = nanAt d k := if_pos (by simpa using h)

theorem fdiv_of_isNan : fdiv d k a b = nanAt d k := if_pos (by simpa using h)

end NanOperand

/-- `inf - inf` (R106). -/
theorem fadd_of_inf_inf {a b : F64} (ha : isInf a = true) (hb : isInf b = true) (hs : sign a ≠ sign b) (d k : Nat) :
    fadd d k a b = nanAt d k := by
  simp [fadd, isNan_of_isInf ha, isNan_of_isInf hb, ha, hb, hs]

theorem isInf_of_isZero {a : F64} (h : isZero a = true) : isInf a = false := isInf_of_isFinite (isFinite_of_isZero h)

theorem isNan_of_isZero {a : F64} (h : isZero a = true) : isNan a = false := isNan_of_isFinite (isFinite_of_isZero h)

theorem isZero_of_isInf {a : F64} (h : isInf a = true) : isZero a = false := by
  rcases Bool.eq_false_or_eq_true (isZero a) with hz | hz
  · simp [isInf_of_isZero hz] at h
  · exact hz

/-- `0 * inf`, in either order (R106). -/
theorem fmul_of_zero_inf {a b : F64} (ha : isZero a = true) (hb : isInf b = true) (d k : Nat) :
    fmul d k a b = nanAt d k ∧ fmul d k b a = nanAt d k := by
  simp [fmul, isNan_of_isZero ha, isNan_of_isInf hb, ha, hb]

/-- `0 / 0` (R106). -/
theorem fdiv_of_zero_zero {a b : F64} (ha : isZero a = true) (hb : isZero b = true) (d k : Nat) :
    fdiv d k a b = nanAt d k := by
  simp [fdiv, isNan_of_isZero ha, isNan_of_isZero hb, isInf_of_isZero ha, isInf_of_isZero hb, ha, hb]

/-- `inf / inf` (R106). -/
theorem fdiv_of_inf_inf {a b : F64} (ha : isInf a = true) (hb : isInf b = true) (d k : Nat) :
    fdiv d k a b = nanAt d k := by
  simp [fdiv, isNan_of_isInf ha, isNan_of_isInf hb, ha, hb]

/-- Settles O59: each of these gives the drawn NaN, which is quiet. -/
theorem invalidOperationsGiveAQuietNan : Obligations.InvalidOperationsGiveAQuietNan := by
  intro d k a b
  have quiet : ∀ {r : F64}, r = nanAt d k → isQuietNan r = true := fun h => h ▸ isQuietNan_nanAt d k
  refine ⟨fun h => ⟨quiet (fadd_of_isNan h d k), quiet (fsub_of_isNan h d k), quiet (fmul_of_isNan h d k),
    quiet (fdiv_of_isNan h d k)⟩, fun ha hb hs => quiet (fadd_of_inf_inf ha hb hs d k), fun ha hb hs => ?_,
    fun ha hb => ?_, fun ha hb => quiet (fdiv_of_zero_zero ha hb d k), fun ha hb => quiet (fdiv_of_inf_inf ha hb d k)⟩
  · exact quiet (fadd_of_inf_inf ha (by rwa [isInf_fneg]) (by rw [sign_fneg, hs]; cases sign b <;> decide) d k)
  · obtain ⟨h1, h2⟩ := fmul_of_zero_inf ha hb d k
    exact ⟨quiet h1, quiet h2⟩

/-! ### Finite operands -/

section Finite
variable {a b : F64} (ha : isFinite a = true) (hb : isFinite b = true) (d k : Nat)
include ha hb

theorem fadd_of_finite : fadd d k a b = addFinite a b := by
  simp [fadd, isNan_of_isFinite ha, isNan_of_isFinite hb, isInf_of_isFinite ha, isInf_of_isFinite hb]

theorem fmul_of_finite : fmul d k a b = pack (sign a != sign b) (roundMag (units a * units b) unitScale) := by
  simp [fmul, isNan_of_isFinite ha, isNan_of_isFinite hb, isInf_of_isFinite ha, isInf_of_isFinite hb]

theorem fdiv_of_finite (hz : isZero b = false) :
    fdiv d k a b = pack (sign a != sign b) (roundMag (units a * unitScale) (units b)) := by
  simp [fdiv, isNan_of_isFinite ha, isNan_of_isFinite hb, isInf_of_isFinite ha, isInf_of_isFinite hb, hz]

end Finite

/-- A number with the sign a pattern has. -/
def signed (neg : Bool) (n : Nat) : Int := if neg then -(n : Int) else n

theorem exact_eq_signed (a : F64) : exact a = signed (sign a) (units a) := rfl

theorem exact_pack (neg : Bool) {m : Nat} (h : m < 2 ^ 63) : exact (pack neg m) = signed neg (unitsOf m) := by
  rw [exact_eq, sign_pack neg h, mag_pack neg h, signed]

theorem signed_natAbs (v : Int) : signed (decide (v < 0)) v.natAbs = v := by
  unfold signed
  split
  · rename_i h
    have := of_decide_eq_true h
    omega
  · rename_i h
    have : ¬ v < 0 := fun hv => h (decide_eq_true hv)
    omega

theorem signed_mul (p q : Bool) (m n : Nat) : signed p m * signed q n = signed (p != q) (m * n) := by
  cases p <;> cases q <;> simp [signed]

theorem abs_signed (p : Bool) (n : Nat) : |signed p n| = n := by
  cases p <;> simp [signed]

/-- The lowest bit of a pattern is the parity of its magnitude. -/
theorem pack_getLsbD_zero (neg : Bool) {m : Nat} (h : m < 2 ^ 63) (he : m % 2 = 0) : (pack neg m).getLsbD 0 = false := by
  rw [BitVec.getLsbD, pack_toNat neg h, Nat.testBit_zero]
  cases neg <;> simp <;> omega

/-- `r` is nearest `v / den` among the finite values, and even where another one is as near (R105). -/
def Nearest (v : Int) (den : Int) (r : F64) : Prop :=
  ∀ z, isFinite z = true → |v - exact r * den| ≤ |v - exact z * den| ∧
    (|v - exact r * den| = |v - exact z * den| → exact z = exact r ∨ r.getLsbD 0 = false)

/-- One rounding with a sign gives the nearest value, even at a tie. -/
theorem nearest_pack (neg : Bool) {num den : Nat} (hd : 0 < den) (hfin : isFinite (pack neg (roundMag num den)) = true) :
    Nearest (signed neg num) den (pack neg (roundMag num den)) := by
  intro z _
  have hlt := roundMag_lt num den
  have hlt' : roundMag num den < infMag := by simpa [isFinite, mag_pack neg hlt] using hfin
  rw [exact_pack neg hlt]
  cases neg with
  | false =>
    obtain ⟨hle, htie⟩ := roundMag_nearest num den hd hlt' z
    exact ⟨hle, fun h => (htie h).imp_right (pack_getLsbD_zero false hlt)⟩
  | true =>
    obtain ⟨hle, htie⟩ := roundMag_nearest num den hd hlt' (fneg z)
    rw [exact_fneg] at hle htie
    have e1 : signed true num - signed true (unitsOf (roundMag num den)) * den =
        -((num : Int) - unitsOf (roundMag num den) * den) := by simp only [signed, if_true]; ring
    have e2 : signed true num - exact z * den = -((num : Int) - -exact z * den) := by simp only [signed, if_true]; ring
    rw [e1, e2, abs_neg, abs_neg]
    refine ⟨hle, fun h => (htie h).imp (fun hz => ?_) (pack_getLsbD_zero true hlt)⟩
    simp only [signed, if_true]
    omega

/-- Where the exact sum is zero so is the result (R108). -/
theorem exact_addFinite_of_zero {a b : F64} (h : exact a + exact b = 0) : exact (addFinite a b) = 0 := by
  rw [addFinite, if_pos h, exact_pack _ (by decide)]
  cases sign a && sign b <;> rfl

theorem addFinite_of_ne_zero {a b : F64} (h : exact a + exact b ≠ 0) :
    addFinite a b = pack (decide (exact a + exact b < 0)) (roundMag (exact a + exact b).natAbs 1) := if_neg h

theorem nearest_fadd {a b : F64} (ha : isFinite a = true) (hb : isFinite b = true) (d k : Nat)
    (hfin : isFinite (fadd d k a b) = true) : Nearest (exact a + exact b) 1 (fadd d k a b) := by
  rw [fadd_of_finite ha hb] at hfin ⊢
  by_cases h0 : exact a + exact b = 0
  · intro z _
    rw [exact_addFinite_of_zero h0, h0, zero_mul, sub_zero, abs_zero]
    refine ⟨abs_nonneg _, fun h => .inl ?_⟩
    have := abs_eq_zero.mp h.symm
    omega
  · rw [addFinite_of_ne_zero h0] at hfin ⊢
    have := nearest_pack _ Nat.one_pos hfin
    rwa [signed_natAbs] at this

theorem nearest_fmul {a b : F64} (ha : isFinite a = true) (hb : isFinite b = true) (d k : Nat)
    (hfin : isFinite (fmul d k a b) = true) : Nearest (exact a * exact b) unitScale (fmul d k a b) := by
  rw [fmul_of_finite ha hb] at hfin ⊢
  have := nearest_pack _ unitScale_pos hfin
  rwa [← signed_mul, ← exact_eq_signed, ← exact_eq_signed] at this

/-- A quotient is nearest where the numerator is nearest the multiples of the denominator, the sign of which does not show. -/
theorem nearest_fdiv {a b : F64} (ha : isFinite a = true) (hb : isFinite b = true) (hz : isZero b = false) (d k : Nat)
    (hfin : isFinite (fdiv d k a b) = true) : Nearest (exact a * unitScale) (exact b) (fdiv d k a b) := by
  rw [fdiv_of_finite ha hb d k hz] at hfin ⊢
  have hpos : 0 < units b := Nat.pos_of_ne_zero fun h0 => by simp [units_eq_zero.mp h0] at hz
  have hnear := nearest_pack _ hpos hfin
  have hflip : ∀ r : Int, |exact a * unitScale - r * exact b| =
      |signed (sign a != sign b) (units a * unitScale) - r * units b| := fun r => by
    have hv : exact a * unitScale = signed (sign a) (units a * unitScale) := by
      have := signed_mul (sign a) false (units a) unitScale
      rwa [Bool.bne_false] at this
    rw [hv, exact_eq_signed b]
    generalize units a * unitScale = n
    cases sign b with
    | false => simp [signed]
    | true =>
      rw [← abs_neg]
      cases sign a <;> simp [signed] <;> ring_nf
  intro z hzf
  rw [hflip, hflip]
  exact hnear z hzf

theorem nearest_fsub {a b : F64} (ha : isFinite a = true) (hb : isFinite b = true) (d k : Nat)
    (hfin : isFinite (fsub d k a b) = true) : Nearest (exact a - exact b) 1 (fsub d k a b) := by
  have := nearest_fadd ha (by rwa [isFinite_fneg] : isFinite (fneg b) = true) d k hfin
  rwa [exact_fneg, ← sub_eq_add_neg] at this

/-- Settles O57. -/
theorem resultsAreRoundedToNearestEven : Obligations.ResultsAreRoundedToNearestEven := by
  intro d k a b ha hb
  refine ⟨fun hfin => ?_, fun hfin => ?_, nearest_fmul ha hb d k,
    fun hz => nearest_fdiv ha hb hz d k⟩
  · simpa only [Nearest, mul_one] using nearest_fadd ha hb d k hfin
  · simpa only [Nearest, mul_one] using nearest_fsub ha hb d k hfin

/-! ### Overflow -/

/-- The largest finite value and half a unit in its last place, in units (R107). -/
def overflowBound : Nat := (2 ^ 54 - 1) * 2 ^ 2044

theorem overflowBound_pos : 0 < overflowBound := by
  unfold overflowBound
  positivity

theorem natCast_mul_two_pow (m e : Nat) : ((m * 2 ^ e : Nat) : Int) = (m : Int) * 2 ^ e := by
  push_cast
  rfl

theorem overflowBound_cast : (overflowBound : Int) = (2 ^ 54 - 1) * 2 ^ 2044 :=
  natCast_mul_two_pow (2 ^ 54 - 1) 2044

/-- A rounded result is infinite exactly from the bound on (R107). -/
theorem isInf_pack_roundMag_iff (neg : Bool) {num den : Nat} (hd : 0 < den) :
    isInf (pack neg (roundMag num den)) = true ↔ overflowBound * den ≤ num := by
  rw [isInf, mag_pack neg (roundMag_lt num den), beq_iff_eq]
  exact roundMag_inf num den hd

/-- The overflow of a sum (R107). -/
theorem isInf_fadd_iff {a b : F64} (ha : isFinite a = true) (hb : isFinite b = true) (d k : Nat) :
    (isInf (fadd d k a b) = true ↔ (overflowBound : Int) ≤ |exact a + exact b|) ∧
      (isInf (fadd d k a b) = true → (sign (fadd d k a b) = true ↔ exact a + exact b < 0)) := by
  rw [fadd_of_finite ha hb]
  by_cases h0 : exact a + exact b = 0
  · have hzero : isInf (addFinite a b) = false := by
      rw [addFinite, if_pos h0]
      cases sign a && sign b <;> decide
    have hpos := overflowBound_pos
    simp only [hzero, h0, abs_zero]
    exact ⟨⟨nofun, fun h => by omega⟩, nofun⟩
  · rw [addFinite_of_ne_zero h0, isInf_pack_roundMag_iff _ Nat.one_pos, sign_pack_roundMag, decide_eq_true_iff,
      Int.abs_eq_natAbs]
    exact ⟨by rw [Nat.mul_one, Nat.cast_le], fun _ => Iff.rfl⟩

/-- The overflow of a product (R107). -/
theorem isInf_fmul_iff {a b : F64} (ha : isFinite a = true) (hb : isFinite b = true) (d k : Nat) :
    (isInf (fmul d k a b) = true ↔ (overflowBound : Int) * unitScale ≤ |exact a * exact b|) ∧
      (isInf (fmul d k a b) = true → (sign (fmul d k a b) = true ↔ exact a * exact b < 0)) := by
  rw [fmul_of_finite ha hb, isInf_pack_roundMag_iff _ unitScale_pos, sign_pack_roundMag, exact_eq_signed, exact_eq_signed,
    signed_mul, abs_signed, ← Nat.cast_mul, Nat.cast_le]
  refine ⟨Iff.rfl, fun hle => ?_⟩
  have hpos : 0 < units a * units b := Nat.lt_of_lt_of_le (Nat.mul_pos overflowBound_pos unitScale_pos) hle
  generalize units a * units b = n at hpos
  cases sign a != sign b
  · simp [signed]
  · simpa [signed] using hpos

/-- Settles O58. -/
theorem overflowGivesInfinity : Obligations.OverflowGivesInfinity := by
  intro d k a b ha hb
  rw [← overflowBound_cast]
  exact ⟨isInf_fadd_iff ha hb d k, isInf_fmul_iff ha hb d k⟩

/-! ### Signs and zeros -/

/-- A NaN, or a value with sign bit 0. -/
def NotNegative (a : F64) : Prop := isNan a = true ∨ sign a = false

theorem exact_nonneg {a : F64} (h : sign a = false) : 0 ≤ exact a := by
  simp [exact, h]

/-- A square has sign bit 0, or is a NaN (R136). -/
theorem fmul_self_notNegative (d k : Nat) (a : F64) : NotNegative (fmul d k a a) := by
  unfold fmul NotNegative
  split_ifs <;> simp

theorem addFinite_sign {a b : F64} (ha : sign a = false) (hb : sign b = false) : sign (addFinite a b) = false := by
  have hsum : ¬ exact a + exact b < 0 := by
    have := exact_nonneg ha
    have := exact_nonneg hb
    omega
  unfold addFinite
  split_ifs
  · simp [ha, hb]
  · simpa using hsum

theorem fadd_notNegative {a b : F64} (ha : NotNegative a) (hb : NotNegative b) (d k : Nat) :
    NotNegative (fadd d k a b) := by
  rcases ha with ha | ha
  · exact .inl (by rw [fadd_of_isNan (.inl ha)]; simp)
  rcases hb with hb | hb
  · exact .inl (by rw [fadd_of_isNan (.inr hb)]; simp)
  unfold fadd NotNegative
  split_ifs <;> simp [ha, hb, addFinite_sign]

theorem sumSquares_notNegative (d base : Nat) (buf : Mem) (n i : Nat) {acc : F64} (h : NotNegative acc) :
    NotNegative (sumSquares d base buf n i acc) := by
  induction n generalizing i acc with
  | zero => exact h
  | succ n ih => exact ih (i + 1) (fadd_notNegative h (fmul_self_notNegative _ _ _) _ _)

theorem sign_u2f (n : Nat) : sign (u2f n) = false := sign_pack_roundMag _ _ _

theorem fdiv_notNegative {a b : F64} (ha : NotNegative a) (hb : sign b = false) (d k : Nat) :
    NotNegative (fdiv d k a b) := by
  rcases ha with ha | ha
  · exact .inl (by rw [fdiv_of_isNan (.inl ha)]; simp)
  unfold fdiv NotNegative
  split_ifs <;> simp [ha, hb]

/-- Settles O44: a sum of squares from `+0.0` is not negative, nor is its quotient by the length. -/
theorem meanSquareIsNotNegative : Obligations.MeanSquareIsNotNegative := fun d base n buf =>
  fdiv_notNegative (sumSquares_notNegative d base buf n 0 (.inr (by decide))) (sign_u2f n) d _

/-- The square of a zero of either sign is `+0.0` (R108). -/
theorem fmul_self_zero {a : F64} (h : isZero a = true) (d k : Nat) : fmul d k a a = 0 := by
  rw [fmul_of_finite (isFinite_of_isZero h) (isFinite_of_isZero h), units_eq_zero.mpr h, Nat.zero_mul, roundMag_zero,
    bne_self_eq_false]
  rfl

theorem fadd_zero_zero (d k : Nat) : fadd d k 0 0 = 0 := by
  rw [fadd_of_finite (by decide) (by decide)]
  decide

theorem sumSquares_of_zeros {d base : Nat} {buf : Mem} {n i : Nat} (h : ∀ j, j < i + n → isZero (buf.read j) = true) :
    sumSquares d base buf n i 0 = 0 := by
  induction n generalizing i with
  | zero => rfl
  | succ n ih =>
    rw [sumSquares, fmul_self_zero (h i (by omega)), fadd_zero_zero]
    exact ih fun j hj => h j (by omega)

/-- Nothing positive is rounded to zero: one unit is nearer. -/
theorem roundMag_pos {num : Nat} (h : 0 < num) : 0 < roundMag num 1 := by
  by_contra hle
  have h0 : roundMag num 1 = 0 := by omega
  have hone : exact 1 = 1 := by decide
  obtain ⟨hnear, -⟩ := roundMag_nearest num 1 Nat.one_pos (by rw [h0]; decide) 1
  rw [h0, hone, unitsOf_eq_zero.mpr rfl, abs_of_nonneg (by omega), abs_of_nonneg (by omega)] at hnear
  omega

/-- A product with a power of two, from a larger factor and a larger power. -/
theorem mul_two_pow_lt {m n i j : Nat} (hij : i ≤ j) (h : n < m) : n * 2 ^ i < m * 2 ^ j := calc
  n * 2 ^ i ≤ n * 2 ^ j := Nat.mul_le_mul_left _ (Nat.pow_le_pow_right Nat.two_pos hij)
  _ < m * 2 ^ j := Nat.mul_lt_mul_of_pos_right h (Nat.two_pow_pos j)

/-- A positive integer below `2^32` is a positive finite binary64 value. -/
theorem u2f_finite {n : Nat} (hpos : 0 < n) (hlt : n < 2 ^ 32) : isFinite (u2f n) = true ∧ isZero (u2f n) = false := by
  have hm : mag (u2f n) = roundMag (n * unitScale) 1 := mag_pack _ (roundMag_lt _ _)
  have hne : roundMag (n * unitScale) 1 ≠ infMag := fun h => by
    have hle := (roundMag_inf (n * unitScale) 1 Nat.one_pos).mp h
    rw [Nat.mul_one] at hle
    exact Nat.not_le.mpr (mul_two_pow_lt (i := 1074) (by decide) (by omega)) hle
  have hle := roundMag_le (n * unitScale) 1
  have hgt := roundMag_pos (Nat.mul_pos hpos unitScale_pos)
  simp only [isFinite, isZero, hm, decide_eq_true_eq, beq_eq_false_iff_ne]
  omega

/-- `+0.0` divided by a positive finite value is `+0.0`. -/
theorem fdiv_zero {b : F64} (hb : isFinite b = true) (hz : isZero b = false) (hs : sign b = false) (d k : Nat) :
    fdiv d k 0 b = 0 := by
  have hu : units 0 = 0 := rfl
  rw [fdiv_of_finite (by decide) hb d k hz, hs, hu, Nat.zero_mul, roundMag_zero]
  rfl

/-- Settles O45. -/
theorem silenceHasZeroEnergy : Obligations.SilenceHasZeroEnergy := by
  intro d base n buf hpos hlt h
  obtain ⟨hfin, hz⟩ := u2f_finite hpos hlt
  rw [meanSquare, sumSquares_of_zeros (by simpa using h), fdiv_zero hfin hz (sign_u2f n)]

/-- 1.0 has as many units as the scale (R15). -/
theorem units_one : units 0x3FF0000000000000 = unitScale := by
  have hm : mag 0x3FF0000000000000 = 1022 * 2 ^ 52 + 2 ^ 52 := by decide
  have hscale : unitScale = 2 ^ (52 + 1022) := congrArg (2 ^ ·) (by decide)
  rw [units_eq, hm, unitsOf_pieces (by decide) (.inr (le_refl _)), hscale, Nat.pow_add]

/-- Settles O47: the product of a finite value has its units, scaled and rounded back; that of an infinity is infinite. -/
theorem unityWeightIsExact : Obligations.UnityWeightIsExact := by
  intro d k m hm
  have hsign : (sign 0x3FF0000000000000 != sign m) = sign m := Bool.false_bne _
  rcases isFinite_or m with hfin | hinf | hnan
  · have hlt : mag m < infMag := by simpa [isFinite] using hfin
    rw [fmul_of_finite (by decide) hfin, hsign, units_one, Nat.mul_comm, units_eq, roundMag_exact unitScale_pos hlt,
      pack_sign_mag]
  · have hmag : mag m = infMag := by simpa [isInf] using hinf
    have hone : isNan 0x3FF0000000000000 = false ∧ isInf 0x3FF0000000000000 = false ∧ isZero 0x3FF0000000000000 = false := by
      decide
    simp only [fmul, hm, hinf, hone, isZero_of_isInf hinf, hsign, Bool.or_self, Bool.or_true, Bool.false_eq_true, if_true,
      if_false]
    rw [← hmag, pack_sign_mag]
  · simp [hm] at hnan

end Sys2Proof.Machine
end

section
/-! SUPPORT. The cascade (R100, R101, R106), what a `PUSH` stores and commits (R131 to R135), and the two clears of the loudness
side (R142, R144). -/

namespace Sys2Proof.Machine

/-! ### The cascade -/

/-- Settles O35: the nine operations of each stage, in their order, are what the cascade is. -/
theorem fprocRunsTheCascade : Obligations.FprocRunsTheCascade := by
  intro ch x s hp hlen
  obtain ⟨t, hx, hans, hchan, hother, hrest⟩ := exec_fproc hp (hp.channel_lt rfl hlen)
  simp only [cascade, stage, Nat.reduceAdd, Nat.zero_add] at hans hchan
  exact ⟨t, hx, hans, hchan, hother, hrest⟩

theorem isNan_fadd {a b : F64} (h : isNan a = true ∨ isNan b = true) (d k : Nat) : isNan (fadd d k a b) = true := by
  rw [fadd_of_isNan h, isNan_nanAt]

theorem isNan_fsub {a b : F64} (h : isNan a = true ∨ isNan b = true) (d k : Nat) : isNan (fsub d k a b) = true := by
  rw [fsub_of_isNan h, isNan_nanAt]

theorem isNan_fmul {a b : F64} (h : isNan a = true ∨ isNan b = true) (d k : Nat) : isNan (fmul d k a b) = true := by
  rw [fmul_of_isNan h, isNan_nanAt]

/-- A NaN in the sample or in a register of a stage makes its `v` and its output a NaN (R106). -/
theorem stage_isNan {d k : Nat} {co : Coef} {p l x : F64} (h : isNan x = true ∨ isNan p = true ∨ isNan l = true) :
    isNan (stage d k co p l x).v = true ∧ isNan (stage d k co p l x).y = true := by
  have hv : isNan (stage d k co p l x).v = true := by
    rcases h with hx | hp | hl
    · exact isNan_fsub (.inl (isNan_fsub (.inl hx) _ _)) _ _
    · exact isNan_fsub (.inl (isNan_fsub (.inr (isNan_fmul (.inr hp) _ _)) _ _)) _ _
    · exact isNan_fsub (.inr (isNan_fmul (.inr hl) _ _)) _ _
  exact ⟨hv, isNan_fadd (.inl (isNan_fadd (.inl (isNan_fmul (.inl hv) _ _)) _ _)) _ _⟩

/-- Settles O36: the NaN of stage 1 is the sample of stage 2. -/
theorem nanPoisonsTheChannel : Obligations.NanPoisonsTheChannel := by
  intro ch x s hp hlen hnan
  obtain ⟨t, hx, hans, hchan, -⟩ := exec_fproc hp (hp.channel_lt rfl hlen)
  simp only [cascade] at hans hchan
  obtain ⟨hv1, hy1⟩ := stage_isNan (d := s.draws) (k := 0) (co := s.cfg.coef1) hnan
  obtain ⟨hv2, hy2⟩ := stage_isNan (d := s.draws) (k := 9) (co := s.cfg.coef2) (p := (s.chan ch.toNat).prev2)
    (l := (s.chan ch.toNat).last2) (.inl hy1)
  refine ⟨t, _, hx, hans, hy2, ?_, ?_, ?_, ?_⟩ <;> rw [hchan]
  · exact hv1
  · exact hv2

/-! ### What a `PUSH` stores -/

theorem SameFilter.refl (k : Channel) : SameFilter k k := ⟨rfl, rfl, rfl, rfl⟩

section Stored
variable {s : State} {ch : BitVec 8} (x : F64)

/-- Storing a sample does what `StoredSample` says, in a channel of the list whose buffer is canonical. -/
theorem storeSample_stored (hlt : ch.toNat < s.chans.length) (hwf : (s.chan ch.toNat).buf.wf = true) :
    StoredSample s (s.storeSample ch.toNat x) ch x := by
  have hchan : (s.storeSample ch.toNat x).chan ch.toNat = sampled s x (s.chan ch.toNat) := s.chan_updChan_same _ _ hlt
  refine ⟨by rw [hchan]; exact .refl _, fun i => ?_, fun e he => ?_⟩
  · rw [hchan]
    exact Mem.read_write hwf _ _ _
  · rw [State.storeSample_eq, State.chan_updChan_other _ _ _ he]
    exact ⟨.refl _, rfl⟩

/-- Storing a sample leaves every latch (R131). -/
theorem storeSample_blkMs (e : Nat) : ((s.storeSample ch.toNat x).chan e).blkMs = (s.chan e).blkMs := by
  by_cases he : e = ch.toNat
  · subst he
    rcases Nat.lt_or_ge ch.toNat s.chans.length with hlt | hge
    · rw [State.storeSample_eq, State.chan_updChan_same _ _ _ hlt]
      rfl
    · rw [State.chan_of_le _ _ (by simpa using hge), State.chan_of_le _ _ hge]
  · rw [State.storeSample_eq, State.chan_updChan_other _ _ _ he]

end Stored

/-- A channel of a closed frame is as before, but that it lacks its sample. -/
theorem State.chan_openFrame (s : State) (w : BitVec 32) (e : Nat) :
    (s.openFrame w).chan e = { s.chan e with pushed := false } :=
  chan_map_all (s := s) (t := s.openFrame w) (g := fun k => { k with pushed := false }) rfl rfl e

/-- Closing the frame leaves what was stored (R132). -/
theorem storedSample_openFrame {s t : State} {ch : BitVec 8} {x : F64} (h : StoredSample s t ch x) (w : BitVec 32) :
    StoredSample s (t.openFrame w) ch x := by
  simpa only [StoredSample, SameFilter, State.chan_openFrame] using h

/-- The response and the draw change nothing of what was stored. -/
theorem storedSample_respond {s t : State} {ch : BitVec 8} {x : F64} (h : StoredSample s t ch x) (v : F64) :
    StoredSample s (t.drawn.respond v) ch x := by
  simpa only [StoredSample, State.chan_respond, State.chan_drawn] using h

theorem SameBesidesChannels.respond_drawn {s t : State} (h : SameBesidesChannels s t) (v : F64) :
    SameBesidesChannels s (t.drawn.respond v) := by
  simpa [SameBesidesChannels, SameTruePeak, SameFault, SamePorts] using h

section Push
variable {s : State} {ch : BitVec 8} {x : BitVec 64} (hs : s.Shaped) (hp : Proper (.push ch x) s)

include hp in
/-- `PUSH` responds the filtered sample (R131). -/
theorem exec_push_filtered :
    exec (.push ch x) s = .next ((pushed s ch x).drawn.respond (filtered s ch x)) := exec_push hp

include hs hp in
/-- A proper `PUSH` stores its sample where the buffers are canonical. -/
theorem push_stored (hst : s.Stored) : StoredSample s (s.storeSample ch.toNat x) ch x := by
  have hlt : ch.toNat < s.chans.length := hp.channel_lt rfl hs.channels
  exact storeSample_stored x hlt (hst.bufs _ (s.chan_mem _ hlt)).1

include hs hp in
/-- While another channel lacks its sample, a `PUSH` only stores (R131). -/
theorem pushed_within_frame (hother : ∃ e, e < s.cfg.nch ∧ e ≠ ch.toNat ∧ (s.chan e).pushed = false) :
    pushed s ch x = s.storeSample ch.toNat x := by
  obtain ⟨e, he, hne, hlacks⟩ := hother
  refine if_neg fun hfull => ?_
  have := (State.storeSample_full (hp.channel_lt rfl hs.channels)).mp hfull e (hs.channels ▸ he) hne
  simp [this] at hlacks

include hs hp in
/-- Where every other channel has its sample, a `PUSH` commits the frame (R131, R132). -/
theorem pushed_fills_frame (hothers : ∀ e, e < s.cfg.nch → e ≠ ch.toNat → (s.chan e).pushed = true) :
    pushed s ch x =
      if s.wp.toNat + 1 = s.cfg.bufLen then
        if s.cfg.mode = .block then ((s.storeSample ch.toNat x).openFrame (s.wp + 1)).blockComplete
        else (s.storeSample ch.toNat x).openFrame 0
      else (s.storeSample ch.toNat x).openFrame (s.wp + 1) := by
  have hfull : (s.storeSample ch.toNat x).frameFull = true :=
    (State.storeSample_full (hp.channel_lt rfl hs.channels)).mpr fun e he => hothers e (hs.channels ▸ he)
  rw [pushed_eq_settled, State.settled, if_pos hfull, State.frameCommit_eq, ← hs.wp_succ]
  rfl

include hs hp in
/-- A `PUSH` that commits a frame and completes no block (R132, R135). -/
theorem exec_push_openFrame (hst : s.Stored) {w : BitVec 32}
    (h : pushed s ch x = (s.storeSample ch.toNat x).openFrame w) :
    ∃ t, exec (.push ch x) s = .next t ∧ Answers s t (filtered s ch x) ∧ StoredSample s t ch x ∧
      (∀ e, (t.chan e).pushed = false ∧ (t.chan e).blkMs = (s.chan e).blkMs) ∧ t.wp = w ∧
      t.blkE = s.blkE ∧ t.blkCnt = s.blkCnt ∧ t.blockReady = s.blockReady ∧ t.ovr = s.ovr ∧ t.cfg = s.cfg ∧
      SameTruePeak s t ∧ SameFault s t ∧ SamePorts s t := by
  have hx := exec_push_filtered hp
  rw [h] at hx
  refine ⟨_, hx, State.respond_answers s _ _ rfl, storedSample_respond (storedSample_openFrame (push_stored hs hp hst) w) _, fun e => ?_, rfl,
    rfl, rfl, rfl, rfl, rfl, ⟨rfl, rfl, rfl, rfl⟩, ⟨rfl, rfl, rfl⟩, rfl, rfl, rfl, rfl⟩
  rw [State.chan_respond, State.chan_drawn, State.chan_openFrame]
  exact ⟨rfl, storeSample_blkMs x e⟩

end Push

/-- Settles O38: the state after is that with the sample stored. -/
theorem pushWithinAFrame : Obligations.PushWithinAFrame := by
  intro ch x s hs hst hp hother
  have hx := exec_push_filtered hp
  rw [pushed_within_frame hs hp hother] at hx
  have hlt : ch.toNat < s.chans.length := hp.channel_lt rfl hs.channels
  obtain ⟨hchan, hothers, hrest⟩ := State.updChan_frame (sampled s x) hlt
  rw [← State.storeSample_eq] at hchan hothers hrest
  have hms := storeSample_blkMs (s := s) (ch := ch) x ch.toNat
  refine ⟨_, hx, State.respond_answers s _ _ rfl, storedSample_respond (push_stored hs hp hst) _, ?_, hms,
    SameOtherChannels.respond_drawn s _ _ hothers, hrest.respond_drawn _⟩
  rw [State.chan_respond, State.chan_drawn, hchan, sampled]

/-- Settles O39. -/
theorem pushCommitsTheFrame : Obligations.PushCommitsTheFrame := by
  intro ch x s hs hst hp hothers hw
  have hpush := pushed_fills_frame hs hp hothers
  rw [if_neg (by omega)] at hpush
  obtain ⟨t, hx, hans, hstored, hchans, hwp, hrest⟩ := exec_push_openFrame hs hp hst hpush
  exact ⟨t, hx, hans, hstored, hchans, by rw [hwp, hs.wp_succ], hrest⟩

/-- Settles O40. -/
theorem pushWrapsTheCursorInCirc : Obligations.PushWrapsTheCursorInCirc := by
  intro ch x s hs hst hp hm hothers hw
  have hpush := pushed_fills_frame hs hp hothers
  rw [if_pos hw, if_neg (by simp [hm])] at hpush
  exact exec_push_openFrame hs hp hst hpush

/-! ### The completed block -/

/-- Settles O42. -/
theorem shiftMovesLeftByTheHop : Obligations.ShiftMovesLeftByTheHop := by
  intro buf h n i hb hh
  simpa using shiftBuf_read h n 0 buf hb hh i

/-- A completed block latches the mean square of each channel of the list (R133). -/
theorem State.blockComplete_blkMs {s : State} {e : Nat} (he : e < s.chans.length) :
    (s.blockComplete.chan e).blkMs = meanSquare s.draws (meanSite s.cfg.bufLen e) s.cfg.bufLen (s.chan e).buf := by
  rw [chan_mapIdx s.blockComplete_chans he]

/-- A completed block leaves the filters and moves every buffer left by the hop (R134). -/
theorem State.blockComplete_shifts {s : State} (hwf : ∀ k ∈ s.chans, k.buf.wf = true) (hh : 0 < s.cfg.hop) (e : Nat) :
    SameFilter (s.chan e) (s.blockComplete.chan e) ∧ (s.blockComplete.chan e).pushed = (s.chan e).pushed ∧
      ∀ i, (s.blockComplete.chan e).buf.read i =
        if i < s.cfg.retained then (s.chan e).buf.read (i + s.cfg.hop) else (s.chan e).buf.read i := by
  rcases Nat.lt_or_ge e s.chans.length with he | he
  · rw [chan_mapIdx s.blockComplete_chans he]
    exact ⟨.refl _, rfl, fun i => shiftMovesLeftByTheHop _ _ _ i (hwf _ (s.chan_mem e he)) hh⟩
  · rw [State.chan_of_le _ _ he, State.chan_of_le _ _ (by simpa using he)]
    exact ⟨.refl _, rfl, fun i => (ite_self _).symm⟩

/-- Storing a sample keeps every buffer canonical. -/
theorem storeSample_wf {s : State} (hst : s.Stored) (c : Nat) (x : F64) :
    ∀ k ∈ (s.storeSample c x).chans, k.buf.wf = true :=
  forall_modify (fun k hk => (hst.bufs k hk).1) fun k hk => Mem.wf_write _ _ (hst.bufs k hk).1

/-- A `PUSH` that completes a block: the state after is the completed block of the closed frame. -/
theorem exec_push_block {s : State} {ch : BitVec 8} {x : BitVec 64} (hs : s.Shaped) (hp : Proper (.push ch x) s)
    (hm : s.cfg.mode = .block) (hothers : ∀ e, e < s.cfg.nch → e ≠ ch.toNat → (s.chan e).pushed = true)
    (hw : s.wp.toNat + 1 = s.cfg.bufLen) :
    exec (.push ch x) s = .next
      (((s.storeSample ch.toNat x).openFrame (s.wp + 1)).blockComplete.drawn.respond (filtered s ch x)) := by
  have hpush := pushed_fills_frame hs hp hothers
  rw [if_pos hw, if_pos hm] at hpush
  rw [exec_push_filtered hp, hpush]

/-- Settles O41: `full` is the state with the sample stored and the frame closed. -/
theorem pushCompletesTheBlock : Obligations.PushCompletesTheBlock := by
  intro ch x s hs hst hp hm hothers hw
  set full : State := (s.storeSample ch.toNat x).openFrame (s.wp + 1) with hfull
  have hlen : full.chans.length = s.cfg.nch := by rw [hfull]; simpa using hs.channels
  have hwf : ∀ k ∈ full.chans, k.buf.wf = true := fun k hk => by
    obtain ⟨k0, hk0, rfl⟩ := List.mem_map.mp hk
    exact storeSample_wf hst _ _ k0 hk0
  have hhop : 0 < full.cfg.hop := (hop_bounds hs.valid hm).2.1
  have hms : ∀ e, e < s.cfg.nch → (full.blockComplete.chan e).blkMs =
      meanSquare s.draws (meanSite s.cfg.bufLen e) s.cfg.bufLen (full.chan e).buf :=
    fun e he => State.blockComplete_blkMs (by omega)
  refine ⟨_, full, exec_push_block hs hp hm hothers hw, State.respond_answers s _ _ rfl,
    storedSample_openFrame (push_stored hs hp hst) _, hms, ?_, rfl, rfl, rfl, fun e => ?_, hs.loudness.retained_toNat, ?_, rfl,
    ⟨rfl, rfl, rfl, rfl⟩, ⟨rfl, rfl, rfl⟩, rfl, rfl, rfl, rfl⟩
  · refine (State.energy_eq (s := full) hs.valid hlen).trans (foldl_range_congr (fun acc e he => ?_) 0)
    rw [State.chan_respond, State.chan_drawn, hms e he]
    rfl
  · obtain ⟨hfilter, hpushed, hread⟩ := State.blockComplete_shifts hwf hhop e
    refine ⟨hfilter, hpushed.trans ?_, hread⟩
    rw [hfull, State.chan_openFrame]
  · simp

/-! ### The clears of the loudness side -/

/-- Settles O49. -/
theorem blkackClearsItsFlags : Obligations.BlkackClearsItsFlags := by
  intro ch data s hp
  obtain ⟨t, hx, rfl⟩ := exec_proper hp nofun
  exact ⟨_, hx, State.respond_answers s 0 _ rfl, rfl, rfl, rfl, rfl, rfl, rfl, rfl, ⟨rfl, rfl, rfl, rfl⟩, ⟨rfl, rfl, rfl⟩,
    rfl, rfl, rfl, rfl⟩

/-- Settles O51: clearing every channel of the list gives the channels of the reset state. -/
theorem mrstRestoresTheLoudnessSide : Obligations.MrstRestoresTheLoudnessSide := by
  intro ch data s hp hlen
  obtain ⟨t, hx, rfl⟩ := exec_proper hp nofun
  have hchans : s.meterReset.chans = (State.resetOf s.cfg).chans := by
    simp [State.meterReset, State.resetOf, hlen]
  exact ⟨_, hx, State.respond_answers s 0 _ rfl, ⟨hchans, rfl, rfl, rfl, rfl, rfl⟩, rfl, ⟨rfl, rfl, rfl, rfl⟩,
    ⟨rfl, rfl, rfl⟩, rfl, rfl, rfl, rfl⟩

end Sys2Proof.Machine
end

section
/-! SUPPORT. The true-peak commands (R171 to R178), and the two entry points as one list of commands (R81, R82). -/

namespace Sys2Proof.Machine

/-! ### `TPIN` and `TPRST` -/

/-- Settles O52. -/
theorem tpinAppendsTheScaledSample : Obligations.TpinAppendsTheScaledSample := by
  intro ch x s hs hst hp
  have room : s.tpFill.toNat ≠ s.cfg.tpCap := by simpa [ownCause] using ownCause_of_none hp.2
  obtain ⟨t, hx, rfl⟩ := exec_proper hp nofun
  exact ⟨_, _, rfl, hx, State.respond_answers s _ _ rfl, State.FillLegal.fill_succ ⟨hs.valid, hs.fill⟩ room,
    fun j => Mem.read_write hst.tpi.1 _ j _, rfl, rfl, rfl, .refl s, ⟨rfl, rfl, rfl⟩, rfl, rfl, rfl, rfl⟩

/-- Settles O56. -/
theorem tprstClearsThePeak : Obligations.TprstClearsThePeak := by
  intro ch data s hp
  obtain ⟨t, hx, rfl⟩ := exec_proper hp nofun
  exact ⟨_, hx, State.respond_answers s 0 _ rfl, rfl, rfl, rfl, rfl, rfl, .refl s, ⟨rfl, rfl, rfl⟩, rfl, rfl, rfl, rfl⟩

/-! ### `TPRUN` with an answer -/

section Run
variable {ch : BitVec 8} {data : BitVec 64} {s : State} (hp : Proper (.tprun ch data) s)
include hp

/-- An answer that keeps the contract is scanned (R172). -/
theorem exec_tprun_answered {r : Reply} {rest : List ResamplerMove} (hr : s.replies = .answer r :: rest)
    (hc : replyConforms s.cfg s.request.frames r = true) :
    exec (.tprun ch data) s = .next ((ran s rest r).drawn.respond (ran s rest r).tpGain) := by
  have hconf : ∀ a later, s.replies = .answer a :: later → replyConforms s.cfg s.request.frames a = true := by
    simpa [hr] using hc
  obtain ⟨t, hx, ⟨r', rest', ⟨hnil, -⟩ | ⟨hans, -⟩, ht⟩ | ⟨rest', hsil, -⟩⟩ := exec_tprun hp hconf
  · simp [hr] at hnil
  · obtain ⟨rfl, rfl⟩ : r = r' ∧ rest = rest' := by simpa [hr] using hans
    rw [hx, ht]
  · simp [hr] at hsil

/-- Where the environment holds no answer, a free one that keeps the contract is scanned (R177). -/
theorem exec_tprun_free (hr : s.replies = []) : ∃ r, replyConforms s.cfg s.request.frames r = true ∧
    exec (.tprun ch data) s = .next ((ran s [] r).drawn.respond (ran s [] r).tpGain) := by
  obtain ⟨t, hx, ⟨r, rest, ⟨-, rfl, hcut⟩ | ⟨hans, -⟩, ht⟩ | ⟨rest, hsil, -⟩⟩ := exec_tprun hp (by simp [hr])
  · exact ⟨r, hcut ▸ cutReply_conforms _ _ _, by rw [hx, ht]⟩
  · simp [hr] at hans
  · simp [hr] at hsil

end Run

/-- The contract of R176 in its three parts. -/
theorem replyConforms_iff {c : Config} {f : Nat} {r : Reply} :
    replyConforms c f r = true ↔ r.used ≤ f ∧ r.gen ≤ c.tpOcap ∧ r.out.length = r.gen * c.tpNch := by
  simp [replyConforms, and_assoc]

/-- What is sent to the resampler when a `TPRUN` is answered (R176). -/
theorem ran_requests (s : State) (rest : List ResamplerMove) (r : Reply) : (ran s rest r).requests =
    s.requests ++ [⟨s.tpFill.toNat / s.cfg.tpNch, (List.range s.tpFill.toNat).map s.tpi.read⟩] := by
  rw [← State.request_eq]
  rfl

/-- The scan as a fold over the samples with their numbers (R173). -/
theorem peakScan_eq (d : Nat) (gOut : F64) (out : List F64) (j : Nat) (gain : F64) : peakScan d gOut j gain out =
    (out.zipIdx j).foldl (fun gain p =>
      if fgt (fabs (fmul d p.2 p.1 gOut)) gain then fabs (fmul d p.2 p.1 gOut) else gain) gain := by
  induction out generalizing j gain with
  | nil => rfl
  | cons x rest ih => exact ih (j + 1) _

/-- Settles O53. -/
theorem tprunScansTheAnswer : Obligations.TprunScansTheAnswer := by
  intro ch data s r rest hp hr hused hgen hout
  have hx := exec_tprun_answered hp hr (replyConforms_iff.mpr ⟨hused, hgen, hout⟩)
  exact ⟨_, hx, State.respond_answers s _ _ rfl, peakScan_eq s.draws s.cfg.gOut r.out 0 s.tpGain, ran_requests s rest r, rfl,
    rfl, rfl, rfl, rfl, rfl, rfl, .refl s, rfl, rfl, rfl⟩

/-- Settles O55. -/
theorem tprunCompletesWithAFreeAnswer : Obligations.TprunCompletesWithAFreeAnswer := by
  intro ch data s _ hp hr
  obtain ⟨r, hconf, hx⟩ := exec_tprun_free hp hr
  obtain ⟨hused, hgen, hout⟩ := replyConforms_iff.mp hconf
  exact ⟨_, r, hx, hused, hgen, hout, rfl, State.respond_answers s _ _ rfl, rfl, rfl, rfl, rfl, .refl s, ⟨rfl, rfl, rfl⟩, rfl,
    rfl, rfl, ran_requests s [] r⟩

/-- The scan from product number `j` gives the old maximum or one of the products, at least as large as the old one and as every
product that is no NaN (R178 (3)). -/
theorem peakScan_max (d : Nat) (gOut : F64) (out : List F64) (j : Nat) (gain : F64) (hn : isNan gain = false) :
    (peakScan d gOut j gain out = gain ∨
      ∃ i x, out[i]? = some x ∧ peakScan d gOut j gain out = fabs (fmul d (j + i) x gOut)) ∧
    order gain ≤ order (peakScan d gOut j gain out) ∧
    ∀ i x, out[i]? = some x → isNan (fabs (fmul d (j + i) x gOut)) = false →
      order (fabs (fmul d (j + i) x gOut)) ≤ order (peakScan d gOut j gain out) := by
  induction out generalizing j gain with
  | nil => exact ⟨.inl rfl, le_refl _, nofun⟩
  | cons y rest ih =>
    obtain ⟨hn', hge, hprod⟩ := peak_step (fabs (fmul d j y gOut)) gain hn
    have hnext : ∀ i, j + 1 + i = j + (i + 1) := fun i => by omega
    obtain ⟨hwhich, hle, hall⟩ := ih (j + 1) _ hn'
    simp only [hnext] at hwhich hall
    refine ⟨?_, hge.trans hle, fun i x hi hx => ?_⟩
    · rcases hwhich with heq | ⟨i, x, hi, heq⟩
      · by_cases hgt : fgt (fabs (fmul d j y gOut)) gain = true
        · exact .inr ⟨0, y, rfl, heq.trans (if_pos hgt)⟩
        · exact .inl (heq.trans (if_neg hgt))
      · exact .inr ⟨i + 1, x, hi, heq⟩
    · cases i with
      | zero =>
        obtain rfl : y = x := by simpa using hi
        exact (hprod hx).trans hle
      | succ i => exact hall i x hi hx

/-- Settles O54. -/
theorem peakIsTheMaximum : Obligations.PeakIsTheMaximum := by
  intro d gOut gain out hn
  simpa only [Nat.zero_add] using peakScan_max d gOut out 0 gain hn

/-! ### The entry points -/

/-- A list made element by element from another, as a map over the indices. -/
theorem mapIdx_eq_map_range {α β : Type} (l : List α) (f : Nat → α → β) (z : α) :
    l.mapIdx f = (List.range l.length).map fun j => f j (l.getD j z) := by
  apply List.ext_getElem (by simp)
  intro i h1 h2
  have hi : i < l.length := by simpa using h1
  simp [hi]

/-- Row by row is index by index (R81). -/
theorem flatMap_range_map {α : Type} (g : Nat → α) (rows n : Nat) :
    (List.range rows).flatMap (fun f => (List.range n).map fun c => g (f * n + c)) = (List.range (rows * n)).map g := by
  induction rows with
  | zero => simp
  | succ rows ih =>
    rw [List.range_succ, List.flatMap_append, ih, Nat.succ_mul, List.range_add]
    simp

/-- Settles O60: both lists have the `PUSH` of element `f * NCH + c` at that place. -/
theorem entryPointsAreTheSameCommands : Obligations.EntryPointsAreTheSameCommands := by
  intro nch frames p flat hpos hp _ hflat hsame
  have hframe : ∀ f ∈ List.range frames, frameCmds (p.map fun ch => ch.getD f 0) =
      (List.range nch).map fun c => .push (BitVec.ofNat 8 ((f * nch + c) % nch)) (flat.getD (f * nch + c) 0) := by
    intro f hf
    rw [frameCmds, mapIdx_eq_map_range _ _ 0, List.length_map, hp]
    refine List.map_congr_left fun c hc => ?_
    have hc' : c < nch := List.mem_range.mp hc
    have hmod : (f * nch + c) % nch = c := by rw [Nat.mul_comm, Nat.mul_add_mod, Nat.mod_eq_of_lt hc']
    rw [hmod, hsame f c (List.mem_range.mp hf) hc']
    simp [hp, hc']
  rw [proci, procd, mapIdx_eq_map_range _ _ 0, hflat, ← flatMap_range_map, List.flatMap_congr hframe]

end Sys2Proof.Machine
end
